-- ==== Sys2Proof/Word.lean ====
section
/-! DEFINITION. The machine's word and the byte of its character streams. -/

namespace Sys2Proof

/-- A register, a memory word, an address or an instruction: 16 bits, arithmetic modulo 2^16 (R9, R12). -/
abbrev Word := BitVec 16

/-- One character of the input source, the output sink or an image file (R36, R50, R204). -/
abbrev Byte := BitVec 8

end Sys2Proof
end

