-- ==== Sys2Proof/Syntax.lean ====
section
/-! DEFINITION. The instructions: one constructor for each row of spec/opcode_table.json. -/

namespace Sys2Proof

/-- The eight general registers R0 to R7 (R21); a 3-bit field selects one of them (R64). -/
inductive Reg where
  | r0 | r1 | r2 | r3 | r4 | r5 | r6 | r7
  deriving DecidableEq, Repr

/-- An instruction, its fields as R62 lays them out. A field named `spare` holds bits the instruction
ignores (R72): they are kept so that decoding loses no bit of the word, and no meaning reads them.
RET is `jmp` with BaseR = R7, no instruction of its own (R132). -/
inductive Instr where
  /-- BR: n, z, p as one 3-bit number (R70), PCoffset9 (R130). -/
  | br (nzp : BitVec 3) (off : BitVec 9)
  /-- ADD, register mode (R100). -/
  | addReg (dr sr1 : Reg) (spare : BitVec 2) (sr2 : Reg)
  /-- ADD, immediate mode (R101). -/
  | addImm (dr sr1 : Reg) (imm : BitVec 5)
  /-- LD (R110). -/
  | ld (dr : Reg) (off : BitVec 9)
  /-- ST (R114). -/
  | st (sr : Reg) (off : BitVec 9)
  /-- JSRR (R134); `spareHi` is bits [10:9], `spareLo` bits [5:0]. -/
  | jsrr (spareHi : BitVec 2) (base : Reg) (spareLo : BitVec 6)
  /-- JSR (R133). -/
  | jsr (off : BitVec 11)
  /-- AND, register mode (R102). -/
  | andReg (dr sr1 : Reg) (spare : BitVec 2) (sr2 : Reg)
  /-- AND, immediate mode (R103). -/
  | andImm (dr sr1 : Reg) (imm : BitVec 5)
  /-- LDR (R112). -/
  | ldr (dr base : Reg) (off : BitVec 6)
  /-- STR (R116). -/
  | str (sr base : Reg) (off : BitVec 6)
  /-- RTI, opcode 8 (R160). -/
  | rti (spare : BitVec 12)
  /-- NOT (R104). -/
  | not (dr sr : Reg) (spare : BitVec 6)
  /-- LDI (R111). -/
  | ldi (dr : Reg) (off : BitVec 9)
  /-- STI (R115). -/
  | sti (sr : Reg) (off : BitVec 9)
  /-- JMP, and RET when BaseR is R7 (R131, R132); `spareHi` is bits [11:9], `spareLo` bits [5:0]. -/
  | jmp (spareHi : BitVec 3) (base : Reg) (spareLo : BitVec 6)
  /-- The reserved opcode 13 (R161). -/
  | reserved (spare : BitVec 12)
  /-- LEA (R113). -/
  | lea (dr : Reg) (off : BitVec 9)
  /-- TRAP (R140); `vect` is trapvect8. -/
  | trap (spare : BitVec 4) (vect : BitVec 8)
  deriving DecidableEq, Repr

end Sys2Proof
end

