-- ==== Sys2Proof/WellFormed.lean ====
section
/-! DEFINITION. Which instructions are well-formed code: those an assembler writes. -/

namespace Sys2Proof

/-- The ignored bits are as well-formed code has them: zero in ADD and AND register mode (R72: "must be
zero in well-formed code"), 111111 in NOT, 0000 in TRAP, zero in RTI (R80).
DEDUCED, log entry 11: zero in JMP and JSRR, from R80's 0xC1C0 and the words of R131 and R134.
The reserved opcode has no assembler form, so no instance of it is well-formed.
A decoded instruction that is not well-formed runs all the same (R72): this says what code looks like,
not what the core accepts. -/
def Instr.WellFormed : Instr → Bool
  | .addReg _ _ spare _ | .andReg _ _ spare _ => spare == 0
  | .not _ _ spare => spare == 0x3F
  | .jmp spareHi _ spareLo => spareHi == 0 && spareLo == 0
  | .jsrr spareHi _ spareLo => spareHi == 0 && spareLo == 0
  | .trap spare _ => spare == 0
  | .rti spare => spare == 0
  | .reserved _ => false
  | .br _ _ | .addImm _ _ _ | .ld _ _ | .st _ _ | .jsr _ | .andImm _ _ _ | .ldr _ _ _ | .str _ _ _
  | .ldi _ _ | .sti _ _ | .lea _ _ => true

end Sys2Proof
end

