-- ==== Sys2Proof/Decode.lean ====
section
/-! DEFINITION. The decoder, total on all 65536 words (R73), and the encoder, both from the formats of R62. -/

namespace Sys2Proof

/-- The sixteen cases of the opcode field (R61). -/
inductive Opcode where
  | br | add | ld | st | jsr | and | ldr | str | rti | not | ldi | sti | jmp | reserved | lea | trap
  deriving DecidableEq, Repr

/-- The opcode map of R61: bits [15:12] to the case (D27). -/
def opcodeOfBits (b : BitVec 4) : Opcode :=
  match b.toNat with
  | 0 => .br | 1 => .add | 2 => .ld | 3 => .st | 4 => .jsr | 5 => .and | 6 => .ldr | 7 => .str
  | 8 => .rti | 9 => .not | 10 => .ldi | 11 => .sti | 12 => .jmp | 13 => .reserved | 14 => .lea | _ => .trap

/-- The opcode map of R61, read the other way. -/
def bitsOfOpcode : Opcode → BitVec 4
  | .br => 0 | .add => 1 | .ld => 2 | .st => 3 | .jsr => 4 | .and => 5 | .ldr => 6 | .str => 7
  | .rti => 8 | .not => 9 | .ldi => 10 | .sti => 11 | .jmp => 12 | .reserved => 13 | .lea => 14 | .trap => 15

/-- The register a 3-bit field selects (R64): the value i selects Ri. -/
def regOfBits (b : BitVec 3) : Reg :=
  match b.toNat with
  | 0 => .r0 | 1 => .r1 | 2 => .r2 | 3 => .r3 | 4 => .r4 | 5 => .r5 | 6 => .r6 | _ => .r7

/-- The 3-bit field that selects a register (R64). -/
def bitsOfReg : Reg → BitVec 3
  | .r0 => 0 | .r1 => 1 | .r2 => 2 | .r3 => 3 | .r4 => 4 | .r5 => 5 | .r6 => 6 | .r7 => 7

/-- The register named by the field of `w` whose lowest bit is bit `lo`. -/
def regField (w : Word) (lo : Nat) : Reg := regOfBits (w.extractLsb' lo 3)

/-- The instruction a word is (R62, R73, R75): decided by bits [15:12], then bit 11 for opcode 4 (1 is JSR,
R71) or bit 5 for opcodes 1 and 5 (1 is immediate mode, R65). Ignored bits never fail (R72). -/
def decode (w : Word) : Instr :=
  match opcodeOfBits (w.extractLsb' 12 4) with
  | .br => .br (w.extractLsb' 9 3) (w.extractLsb' 0 9)
  | .add => if w.getLsbD 5 then .addImm (regField w 9) (regField w 6) (w.extractLsb' 0 5)
            else .addReg (regField w 9) (regField w 6) (w.extractLsb' 3 2) (regField w 0)
  | .ld => .ld (regField w 9) (w.extractLsb' 0 9)
  | .st => .st (regField w 9) (w.extractLsb' 0 9)
  | .jsr => if w.getLsbD 11 then .jsr (w.extractLsb' 0 11)
            else .jsrr (w.extractLsb' 9 2) (regField w 6) (w.extractLsb' 0 6)
  | .and => if w.getLsbD 5 then .andImm (regField w 9) (regField w 6) (w.extractLsb' 0 5)
            else .andReg (regField w 9) (regField w 6) (w.extractLsb' 3 2) (regField w 0)
  | .ldr => .ldr (regField w 9) (regField w 6) (w.extractLsb' 0 6)
  | .str => .str (regField w 9) (regField w 6) (w.extractLsb' 0 6)
  | .rti => .rti (w.extractLsb' 0 12)
  | .not => .not (regField w 9) (regField w 6) (w.extractLsb' 0 6)
  | .ldi => .ldi (regField w 9) (w.extractLsb' 0 9)
  | .sti => .sti (regField w 9) (w.extractLsb' 0 9)
  | .jmp => .jmp (w.extractLsb' 9 3) (regField w 6) (w.extractLsb' 0 6)
  | .reserved => .reserved (w.extractLsb' 0 12)
  | .lea => .lea (regField w 9) (w.extractLsb' 0 9)
  | .trap => .trap (w.extractLsb' 8 4) (w.extractLsb' 0 8)

/-- A field put where its lowest bit is bit `lo` of the word. -/
def bitsAt {n : Nat} (v : BitVec n) (lo : Nat) : Word := v.setWidth 16 <<< lo

/-- A register field put where its lowest bit is bit `lo` of the word. -/
def regAt (r : Reg) (lo : Nat) : Word := bitsAt (bitsOfReg r) lo

/-- The opcode field, bits [15:12] (R60). -/
def opcodeAt (o : Opcode) : Word := bitsAt (bitsOfOpcode o) 12

/-- The word an instruction is written as: its fields at the positions of R62. -/
def encode : Instr → Word
  | .br nzp off => opcodeAt .br ||| bitsAt nzp 9 ||| bitsAt off 0
  | .addReg dr sr1 spare sr2 => opcodeAt .add ||| regAt dr 9 ||| regAt sr1 6 ||| bitsAt spare 3 ||| regAt sr2 0
  | .addImm dr sr1 imm => opcodeAt .add ||| regAt dr 9 ||| regAt sr1 6 ||| bitsAt 1#1 5 ||| bitsAt imm 0
  | .ld dr off => opcodeAt .ld ||| regAt dr 9 ||| bitsAt off 0
  | .st sr off => opcodeAt .st ||| regAt sr 9 ||| bitsAt off 0
  | .jsrr spareHi base spareLo => opcodeAt .jsr ||| bitsAt spareHi 9 ||| regAt base 6 ||| bitsAt spareLo 0
  | .jsr off => opcodeAt .jsr ||| bitsAt 1#1 11 ||| bitsAt off 0
  | .andReg dr sr1 spare sr2 => opcodeAt .and ||| regAt dr 9 ||| regAt sr1 6 ||| bitsAt spare 3 ||| regAt sr2 0
  | .andImm dr sr1 imm => opcodeAt .and ||| regAt dr 9 ||| regAt sr1 6 ||| bitsAt 1#1 5 ||| bitsAt imm 0
  | .ldr dr base off => opcodeAt .ldr ||| regAt dr 9 ||| regAt base 6 ||| bitsAt off 0
  | .str sr base off => opcodeAt .str ||| regAt sr 9 ||| regAt base 6 ||| bitsAt off 0
  | .rti spare => opcodeAt .rti ||| bitsAt spare 0
  | .not dr sr spare => opcodeAt .not ||| regAt dr 9 ||| regAt sr 6 ||| bitsAt spare 0
  | .ldi dr off => opcodeAt .ldi ||| regAt dr 9 ||| bitsAt off 0
  | .sti sr off => opcodeAt .sti ||| regAt sr 9 ||| bitsAt off 0
  | .jmp spareHi base spareLo => opcodeAt .jmp ||| bitsAt spareHi 9 ||| regAt base 6 ||| bitsAt spareLo 0
  | .reserved spare => opcodeAt .reserved ||| bitsAt spare 0
  | .lea dr off => opcodeAt .lea ||| regAt dr 9 ||| bitsAt off 0
  | .trap spare vect => opcodeAt .trap ||| bitsAt spare 8 ||| bitsAt vect 0

/-- The instruction of the table's numbering: `w` on `nbits` bits, one word on this hardware (R60). A number
that needs more than 16 bits is no instruction word, and is refused. -/
def decodeTableWord (nbits w : Nat) : Option Instr :=
  if w % 2 ^ nbits < 2 ^ 16 then some (decode (BitVec.ofNat 16 (w % 2 ^ nbits))) else none

end Sys2Proof
end

