-- ==== Sys2Proof/Config.lean ====
section
/-! DEFINITION. What the source leaves open for one instance of the block (R10): the type of the input
mode, and an opaque constant, with no body, for each parameter the spec marks OPEN. -/

namespace Sys2Proof

/-- INPUT_MODE (R10, D9): where GETC, IN and the KBSR poll take characters from. -/
inductive InputMode where
  /-- LIVE: from the input queue, which the host appends to (R35). -/
  | live
  /-- INJECTED: from the words KBSR and KBDR of memory (R35, R46). -/
  | injected
  deriving DecidableEq, Repr, Inhabited

namespace Config

/-- INPUT_MODE of an instance right after its creation (R10: OPEN).
DESIGN CHOICE, log entry 3: no body, so nothing can be proved of its value. -/
opaque inputMode : InputMode

/-- IN_PROMPT of an instance right after its creation (R10: OPEN; D14). DESIGN CHOICE, log entry 3. -/
opaque inPrompt : List Byte

/-- HALT_NOTICE of an instance right after its creation (R10: OPEN; D15). DESIGN CHOICE, log entry 3. -/
opaque haltNotice : List Byte

end Config
end Sys2Proof
end

