-- ==== Sys2Proof/Machine/State.lean ====
section
/-! DEFINITION. The state of the block (R39), the reasons a step stops, and the state after reset (R200). -/

namespace Sys2Proof.Machine

/-- The eight general registers (R21), each 16 bits, none hardwired. -/
structure Regs where
  r0 : Word
  r1 : Word
  r2 : Word
  r3 : Word
  r4 : Word
  r5 : Word
  r6 : Word
  r7 : Word
  deriving DecidableEq, Repr

/-- The word memory (R40): (word address, word) pairs. An address with no entry reads as 0x0000.
DESIGN CHOICE, log entry 1: the unit is the 16-bit word, since the memory has no byte addresses (R40, R50). -/
abbrev Memory := List (Nat × Word)

/-- The failure a step can record in the fault latch (R34, R171, R172). -/
inductive Failure where
  /-- IllegalOpcode: the 4-bit opcode and the address the instruction was fetched from. -/
  | illegalOpcode (op : BitVec 4) (addr : Word)
  /-- UnknownTrap: the 8-bit vector and the address the TRAP was fetched from. -/
  | unknownTrap (vec : BitVec 8) (addr : Word)
  deriving DecidableEq, Repr

/-- The parameters of one instance (R10). No step and no host transaction changes them.
DESIGN CHOICE, log entry 3: they stand in State, so that every value of each is covered. -/
structure Params where
  /-- INPUT_MODE (D9). -/
  inputMode : InputMode
  /-- IN_PROMPT (D14). -/
  inPrompt : List Byte
  /-- HALT_NOTICE (D15). -/
  haltNotice : List Byte
  /-- JSRR_READS_BASE_FIRST (R134, D22). -/
  jsrrReadsBaseFirst : Bool
  deriving DecidableEq, Repr

/-- The complete state vector of R39, with the instance's parameters (R10). -/
structure State where
  /-- R0 to R7 (R21). -/
  regs : Regs
  /-- PC: the address of the next instruction to fetch (R24). -/
  pc : Word
  /-- COND, a 16-bit slot that holds POS = 1, ZRO = 2 or NEG = 4 (R28). -/
  cond : Word
  /-- Memory, KBSR (0xFE00) and KBDR (0xFE02) included (R32, R40). -/
  mem : Memory
  /-- The running flag (R33). -/
  running : Bool
  /-- The fault latch (R34). -/
  faultLatch : Option Failure
  /-- The output sink, oldest byte first (R36). -/
  output : List Byte
  /-- The LIVE input queue, next byte first (R35). -/
  inputQueue : List Byte
  /-- The loaded segment record: (start address, word count), oldest first (R37). -/
  segments : List (Word × Nat)
  /-- The instance's parameters (R10). -/
  params : Params
  deriving DecidableEq, Repr

/-- Why a step does not answer a next state although the spec describes the step. `failed` and `held` change nothing:
the state before the step is the state after it. `diverged` has no state after it. -/
inductive Fault where
  /-- Raised by `step` while the fault latch is set: the step returns Failed(record) and changes nothing
  (R173). Safe: the core takes no further step, as the spec says. -/
  | failed (record : Failure)
  /-- Raised by TRAP GETC and TRAP IN when no character is available: the step is Held, not taken, and
  becomes takeable when the host supplies a character (R79, R142). Safe: it invents no value. -/
  | held
  /-- Raised by TRAP PUTS and TRAP PUTSP when the scan never reads a zero word: the step is Diverged and has
  no result (R152, R192). Nothing lifts it (R192). Safe: no state follows (log entry 20). -/
  | diverged
  deriving DecidableEq, Repr

/-- Why a step has no meaning. -/
inductive Refusal where
  /-- Raised by exec for an instruction that has no meaning yet. Safe. -/
  | notModelled (mnemonic : String)
  /-- Raised by `step` in a state whose COND is not 1, 2 or 4: "a state with any other COND value is outside
  this spec, and a model refuses it as a launch state" (R39, D23). Safe. -/
  | illegalCond
  deriving DecidableEq, Repr

/-- The block right after reset (R200; the rows of R39). The parameters the spec marks OPEN are the opaque
constants of Config; JSRR_READS_BASE_FIRST has its decided value (R10, D22; log entry 4).
DESIGN CHOICE, log entry 5: the LIVE queue, which the host supplies (R39), is empty. -/
def State.reset : State where
  regs := ⟨0, 0, 0, 0, 0, 0, 0, 0⟩
  pc := 0x3000
  cond := 2
  mem := []
  running := true
  faultLatch := none
  output := []
  inputQueue := []
  segments := []
  params :=
    { inputMode := Config.inputMode
      inPrompt := Config.inPrompt
      haltNotice := Config.haltNotice
      jsrrReadsBaseFirst := false }

end Sys2Proof.Machine
end

