-- ==== Sys2Proof/Machine/Ops.lean ====
section
/-! DEFINITION. The named operations over registers, memory, the keyboard, the output sink and the fault
latch: the primitives of R14 and R15, each the one place its rule is decided. -/

namespace Sys2Proof.Machine

/-- What a step or a meaning answers. -/
abbrev Result := Host.Outcome State Fault Refusal

/-! ### Registers -/

/-- The register `Ri` of a register file (R21). -/
def Regs.get (g : Regs) : Reg → Word
  | .r0 => g.r0 | .r1 => g.r1 | .r2 => g.r2 | .r3 => g.r3
  | .r4 => g.r4 | .r5 => g.r5 | .r6 => g.r6 | .r7 => g.r7

/-- The register file with `Ri` holding `v` (R21: each holds whatever was last written to it). -/
def Regs.set (g : Regs) (r : Reg) (v : Word) : Regs :=
  match r with
  | .r0 => { g with r0 := v } | .r1 => { g with r1 := v } | .r2 => { g with r2 := v } | .r3 => { g with r3 := v }
  | .r4 => { g with r4 := v } | .r5 => { g with r5 := v } | .r6 => { g with r6 := v } | .r7 => { g with r7 := v }

/-- `x[i]` (R14). -/
def State.reg (s : State) (r : Reg) : Word := s.regs.get r

/-- `x[i] <- v` (R14). It writes no flag; `setcc` is Flags.lean's. -/
def State.setReg (s : State) (r : Reg) (v : Word) : State := { s with regs := s.regs.set r v }

/-- `PC <- v` (R14). -/
def State.setPc (s : State) (v : Word) : State := { s with pc := v }

/-- The link write `x[7] <- PC` of JSR, JSRR and TRAP (R22); it does not touch COND (R29). -/
def State.link (s : State) : State := s.setReg .r7 s.pc

/-! ### Memory -/

/-- What an address with no entry reads as: memory is all zero at reset (R40, R200; log entry 2). -/
def Memory.blank : Word := 0

/-- The word at address `a`. -/
def Memory.lookup : Memory → Nat → Word
  | [], _ => Memory.blank
  | (k, v) :: rest, a => if k = a then v else Memory.lookup rest a

/-- The memory with no entry at address `a`. -/
def Memory.drop : Memory → Nat → Memory
  | [], _ => []
  | (k, v) :: rest, a => if k = a then Memory.drop rest a else (k, v) :: Memory.drop rest a

/-- The memory with the entry (a, v) put before the first higher address. -/
def Memory.place : Memory → Nat → Word → Memory
  | [], a, v => [(a, v)]
  | (k, w) :: rest, a, v => if a < k then (a, v) :: (k, w) :: rest else (k, w) :: Memory.place rest a v

/-- The memory with word `v` at address `a`, in canonical form: a blank word has no entry. -/
def Memory.store (m : Memory) (a : Nat) (v : Word) : Memory :=
  if v = Memory.blank then m.drop a else (m.drop a).place a v

/-- The canonical form: addresses strictly rising and below 65536 (R40), no entry that holds the blank word. -/
abbrev Memory.wf (m : Memory) : Prop :=
  m.Pairwise (fun x y => x.1 < y.1) ∧ ∀ c ∈ m, c.1 < 65536 ∧ c.2 ≠ Memory.blank

/-- `Memory[a]`, with no side effect: what the host's read_mem returns (R190). -/
def State.peek (s : State) (a : Word) : Word := s.mem.lookup a.toNat

/-- `MemWrite(a, 1, v)`: a plain store, with no side effect, at every address (R43). -/
def State.memWrite (s : State) (a v : Word) : State := { s with mem := s.mem.store a.toNat v }

/-- KBSR, the keyboard status register (R9, R32). -/
def kbsr : Word := 0xFE00

/-- KBDR, the keyboard data register (R9, R32). -/
def kbdr : Word := 0xFE02

/-- `zext_8` of a character (R13, D13). -/
def charWord (c : Byte) : Word := c.setWidth 16

/-- The poll of R44: R45 in LIVE mode, R46 in INJECTED mode. -/
def State.poll (s : State) : State :=
  match s.params.inputMode with
  | .injected => s
  | .live =>
    match s.inputQueue with
    | [] => s.memWrite kbsr 0x0000
    | c :: rest => ({ s with inputQueue := rest }.memWrite kbdr (charWord c)).memWrite kbsr 0x8000

/-- `MemRead(a, 1)` (R42, R44): the word read, after the poll when `a` is KBSR, and the state left. Every read
the core makes is this one (R48). -/
def State.memRead (s : State) (a : Word) : Word × State :=
  let s1 := if a = kbsr then s.poll else s
  (s1.peek a, s1)

/-! ### Characters in and out -/

/-- `Out(bs)`: the bytes appended to the output sink, in order; it never fails (R36, R151). -/
def State.out (s : State) (bs : List Byte) : State := { s with output := s.output ++ bs }

/-- `InGet()` (R142): the character and the state it leaves, or none when no character is available (HOLD). -/
def State.inGet (s : State) : Option (Byte × State) :=
  match s.params.inputMode with
  | .live =>
    match s.inputQueue with
    | [] => none
    | c :: rest => some (c, { s with inputQueue := rest })
  | .injected =>
    if (s.peek kbsr).getLsbD 15 then some ((s.peek kbdr).extractLsb' 0 8, s.memWrite kbsr 0x0000) else none

/-! ### The running flag and failures -/

/-- `running <- false` (R148, R178). -/
def State.halt (s : State) : State := { s with running := false }

/-- The address the executing instruction was fetched from: PC already holds it plus 1 (R24).
DEDUCED, log entry 8: `exec` is not told the address, and no instruction that fails has moved PC. -/
def State.fetchAddr (s : State) : Word := s.pc - 1

/-- `raise` (R15, R173): the failing step sets the fault latch to its record. Nothing is saved beyond the
record, no mode changes and control goes nowhere (R181): PC keeps its post-fetch value (R171, R172).
There is no return from a failure (R182). DESIGN CHOICE, log entry 6: a failing step answers the state it leaves. -/
def State.raise (s : State) (f : Failure) : Result := .next { s with faultLatch := some f }

/-- `raise IllegalOpcode(op, addr)` (R171). -/
def State.raiseIllegalOpcode (s : State) (op : BitVec 4) : Result := s.raise (.illegalOpcode op s.fetchAddr)

/-- `raise UnknownTrap(vec, addr)` (R172). -/
def State.raiseUnknownTrap (s : State) (vec : BitVec 8) : Result := s.raise (.unknownTrap vec s.fetchAddr)

/-! ### The fetch -/

/-- Fetch and advance (R24, R76): the word at PC, read like any other word, so a fetch from KBSR polls (R48),
and the state with PC incremented modulo 2^16. -/
def State.fetch (s : State) : Word × State :=
  let r := s.memRead s.pc
  (r.1, r.2.setPc (s.pc + 1))

/-- COND holds POS, ZRO or NEG (R28): the states the spec is about (R39). -/
def condLegal (c : Word) : Bool := c == 1 || c == 2 || c == 4

end Sys2Proof.Machine
end

