-- ==== Sys2Proof/Machine/Operands.lean ====
section
/-! DEFINITION. Operands and effective addresses: sign extension (R13), the second operand of ADD and AND
(R65) and the three addressing modes (R117). -/

namespace Sys2Proof.Machine

/-- `sext_N` of an N-bit field: bit N-1 replicated up to bit 15 (R13). -/
def sextField {n : Nat} (v : BitVec n) : Word := v.signExtend 16

/-- `sext_N(v)` of a word: the low N bits of `v`, sign-extended (R13). -/
def sext (n : Nat) (v : Word) : Word := sextField (v.setWidth n)

/-- PC-relative: the incremented PC plus the sign-extended PCoffset9 (R67). -/
def State.pcRel9 (s : State) (off : BitVec 9) : Word := s.pc + sextField off

/-- PC-relative: the incremented PC plus the sign-extended PCoffset11 of JSR (R68). -/
def State.pcRel11 (s : State) (off : BitVec 11) : Word := s.pc + sextField off

/-- Base plus offset: `x[BaseR] + sext_6(offset6)` (R66). -/
def State.baseOff (s : State) (base : Reg) (off : BitVec 6) : Word := s.reg base + sextField off

/-- The low byte of a word: the character OUT and PUTS emit (R50, D16). -/
def lowByte (w : Word) : Byte := w.extractLsb' 0 8

/-- The high byte of a word (R50, R147). -/
def highByte (w : Word) : Byte := w.extractLsb' 8 8

end Sys2Proof.Machine
end

