-- ==== Sys2Proof/Machine/Flags.lean ====
section
/-! DEFINITION. The condition code: `setcc` (R27), its three values (R28) and the test of BR (R70, R130). -/

namespace Sys2Proof.Machine

/-- POS (R28). -/
def condPos : Word := 1

/-- ZRO (R28). -/
def condZro : Word := 2

/-- NEG (R28). -/
def condNeg : Word := 4

/-- The condition code of a written value (R27). -/
def condOf (v : Word) : Word :=
  if v = 0 then condZro else if v.getLsbD 15 then condNeg else condPos

/-- `setcc(v)` (R27). -/
def State.setcc (s : State) (v : Word) : State := { s with cond := condOf v }

/-- A result written to DR and COND set from it (R29): ADD, AND, NOT, LD, LDI, LDR, LEA and, for R0, GETC and IN. -/
def State.writeResult (s : State) (dr : Reg) (v : Word) : State := (s.setReg dr v).setcc v

/-- BR's test `(nzp & COND) /= 0` (R70, R130). -/
def State.branchTaken (s : State) (nzp : BitVec 3) : Bool := (nzp.setWidth 16 &&& s.cond) != 0

end Sys2Proof.Machine
end

