-- ==== Sys2Proof/Machine/Control.lean ====
section
/-! DEFINITION. BR, JMP (RET), JSR, JSRR (spec/42_control.md). None writes COND, none can fail, none has a
delay slot. -/

namespace Sys2Proof.Machine

/-- BR (R130). -/
def execBr (nzp : BitVec 3) (off : BitVec 9) (s : State) : Result :=
  .next (if s.branchTaken nzp then s.setPc (s.pcRel9 off) else s)

/-- JMP (R131); RET is JMP R7 (R132). -/
def execJmp (base : Reg) (s : State) : Result := .next (s.setPc (s.reg base))

/-- JSR (R133). -/
def execJsr (off : BitVec 11) (s : State) : Result := .next (s.link.setPc (s.pcRel11 off))

/-- JSRR (R134): BaseR is read after the link write, unless JSRR_READS_BASE_FIRST says before (D22). -/
def execJsrr (base : Reg) (s : State) : Result :=
  let b := s.reg base
  let s1 := s.link
  .next (s1.setPc (if s.params.jsrrReadsBaseFirst then b else s1.reg base))

end Sys2Proof.Machine
end

