-- ==== Sys2Proof/Machine/DataMovement.lean ====
section
/-! DEFINITION. LD, LDI, LDR, LEA, ST, STI, STR (spec/41_data_movement.md). Every read is `memRead`, so a read
of KBSR polls; a store never does. -/

namespace Sys2Proof.Machine

/-- LD (R110). -/
def execLd (dr : Reg) (off : BitVec 9) (s : State) : Result :=
  let r := s.memRead (s.pcRel9 off)
  .next (r.2.writeResult dr r.1)

/-- LDI (R111): the pointer is read first, then the data; each read polls if its address is KBSR. -/
def execLdi (dr : Reg) (off : BitVec 9) (s : State) : Result :=
  let p := s.memRead (s.pcRel9 off)
  let r := p.2.memRead p.1
  .next (r.2.writeResult dr r.1)

/-- LDR (R112). -/
def execLdr (dr base : Reg) (off : BitVec 6) (s : State) : Result :=
  let r := s.memRead (s.baseOff base off)
  .next (r.2.writeResult dr r.1)

/-- LEA (R113): it reads no memory, and sets COND from the address (C9). -/
def execLea (dr : Reg) (off : BitVec 9) (s : State) : Result := .next (s.writeResult dr (s.pcRel9 off))

/-- ST (R114). -/
def execSt (sr : Reg) (off : BitVec 9) (s : State) : Result := .next (s.memWrite (s.pcRel9 off) (s.reg sr))

/-- STI (R115): the pointer read polls if its address is KBSR; the store does not. -/
def execSti (sr : Reg) (off : BitVec 9) (s : State) : Result :=
  let p := s.memRead (s.pcRel9 off)
  .next (p.2.memWrite p.1 (p.2.reg sr))

/-- STR (R116). -/
def execStr (sr base : Reg) (off : BitVec 6) (s : State) : Result :=
  .next (s.memWrite (s.baseOff base off) (s.reg sr))

end Sys2Proof.Machine
end

