-- ==== Sys2Proof/Machine/Operate.lean ====
section
/-! DEFINITION. ADD, AND, NOT (spec/40_operate.md). PC already holds the address of the instruction plus 1. -/

namespace Sys2Proof.Machine

/-- ADD, register mode (R100). -/
def execAddReg (dr sr1 sr2 : Reg) (s : State) : Result := .next (s.writeResult dr (s.reg sr1 + s.reg sr2))

/-- ADD, immediate mode (R101). -/
def execAddImm (dr sr1 : Reg) (imm : BitVec 5) (s : State) : Result :=
  .next (s.writeResult dr (s.reg sr1 + sextField imm))

/-- AND, register mode (R102). -/
def execAndReg (dr sr1 sr2 : Reg) (s : State) : Result := .next (s.writeResult dr (s.reg sr1 &&& s.reg sr2))

/-- AND, immediate mode (R103). -/
def execAndImm (dr sr1 : Reg) (imm : BitVec 5) (s : State) : Result :=
  .next (s.writeResult dr (s.reg sr1 &&& sextField imm))

/-- NOT (R104). -/
def execNot (dr sr : Reg) (s : State) : Result := .next (s.writeResult dr (~~~ s.reg sr))

end Sys2Proof.Machine
end

