-- ==== Sys2Proof/Machine/Trap.lean ====
section
/-! DEFINITION. TRAP and the trap dispatcher's six services (spec/43_trap.md). A service runs inside the TRAP's
own step, reads no vector table and leaves PC alone (R150). -/

namespace Sys2Proof.Machine

/-- GETC (R143), in the state after the link write. -/
def trapGetc (s : State) : Result :=
  match s.inGet with
  | none => .fault .held
  | some (c, s1) => .next (s1.writeResult .r0 (charWord c))

/-- OUT (R144). -/
def trapOut (s : State) : Result := .next (s.out [lowByte (s.reg .r0)])

/-- The bytes PUTS emits for a nonzero word (R145). -/
def putsBytes (w : Word) : List Byte := [lowByte w]

/-- The bytes PUTSP emits for a nonzero word: the low byte, then the high byte if nonzero (R147). -/
def putspBytes (w : Word) : List Byte := if highByte w = 0 then [lowByte w] else [lowByte w, highByte w]

/-- The scan of R145 and R147 from address `a`, at most `fuel` reads: the state at its end, or none if none of
those reads was a zero word. -/
def scan (bytes : Word → List Byte) : Nat → Word → State → Option State
  | 0, _, _ => none
  | fuel + 1, a, s =>
    let r := s.memRead a
    if r.1 = 0 then some r.2 else scan bytes fuel (a + 1) (r.2.out (bytes r.1))

/-- The reads after which a scan that has not ended never ends (R152): k + 1 laps of the 65536 addresses, k the
length of the queue. In LIVE mode each lap consumes a queued byte at KBSR or ends there; in INJECTED mode nothing
changes memory during the scan, so one lap would do. DEDUCED, log entry 7. -/
def State.scanFuel (s : State) : Nat := (s.inputQueue.length + 1) * 65536

/-- The shared scan of PUTS and PUTSP from the address in R0: Diverged when it never ends (R152). -/
def State.scanFromR0 (bytes : Word → List Byte) (s : State) : Result :=
  match scan bytes s.scanFuel (s.reg .r0) s with
  | none => .fault .diverged
  | some t => .next t

/-- PUTS (R145). -/
def trapPuts (s : State) : Result := s.scanFromR0 putsBytes

/-- IN (R146): the character is taken first, so a held IN outputs nothing; then the prompt, the echo, R0, COND. -/
def trapIn (s : State) : Result :=
  match s.inGet with
  | none => .fault .held
  | some (c, s1) => .next (((s1.out s1.params.inPrompt).out [c]).writeResult .r0 (charWord c))

/-- PUTSP (R147). -/
def trapPutsp (s : State) : Result := s.scanFromR0 putspBytes

/-- HALT (R148). -/
def trapHalt (s : State) : Result := .next (s.out s.params.haltNotice).halt

/-- TRAP (R140): the link write first, then the service the vector selects, or UnknownTrap (R149). -/
def execTrap (vect : BitVec 8) (s : State) : Result :=
  let s1 := s.link
  match vect.toNat with
  | 0x20 => trapGetc s1
  | 0x21 => trapOut s1
  | 0x22 => trapPuts s1
  | 0x23 => trapIn s1
  | 0x24 => trapPutsp s1
  | 0x25 => trapHalt s1
  | _ => s1.raiseUnknownTrap vect

end Sys2Proof.Machine
end

