-- ==== Sys2Proof/Machine/Unimplemented.lean ====
section
/-! DEFINITION. RTI and the reserved opcode 13 (spec/44_unimplemented.md): their effect is the IllegalOpcode failure. -/

namespace Sys2Proof.Machine

/-- RTI, every word 0x8000 to 0x8FFF (R160): it returns from nothing, it fails. -/
def execRti (s : State) : Result := s.raiseIllegalOpcode 8

/-- The reserved opcode, every word 0xD000 to 0xDFFF (R161). -/
def execReserved (s : State) : Result := s.raiseIllegalOpcode 13

end Sys2Proof.Machine
end

