-- ==== Sys2Proof/Machine/Dispatch.lean ====
section
/-! DEFINITION. exec: one arm for each constructor of Instr (R78), run in the state after the fetch. -/

namespace Sys2Proof.Machine

/-- The effect of an instruction whose word has been fetched: PC holds its address plus 1 (R24). The ignored
bits of an instruction reach no meaning (R72). -/
def exec (i : Instr) (s : State) : Host.Outcome State Fault Refusal :=
  match i with
  | .br nzp off => Sys2Proof.Machine.execBr nzp off s
  | .addReg dr sr1 _ sr2 => Sys2Proof.Machine.execAddReg dr sr1 sr2 s
  | .addImm dr sr1 imm => Sys2Proof.Machine.execAddImm dr sr1 imm s
  | .ld dr off => Sys2Proof.Machine.execLd dr off s
  | .st sr off => Sys2Proof.Machine.execSt sr off s
  | .jsrr _ base _ => Sys2Proof.Machine.execJsrr base s
  | .jsr off => Sys2Proof.Machine.execJsr off s
  | .andReg dr sr1 _ sr2 => Sys2Proof.Machine.execAndReg dr sr1 sr2 s
  | .andImm dr sr1 imm => Sys2Proof.Machine.execAndImm dr sr1 imm s
  | .ldr dr base off => Sys2Proof.Machine.execLdr dr base off s
  | .str sr base off => Sys2Proof.Machine.execStr sr base off s
  | .rti _ => Sys2Proof.Machine.execRti s
  | .not dr sr _ => Sys2Proof.Machine.execNot dr sr s
  | .ldi dr off => Sys2Proof.Machine.execLdi dr off s
  | .sti sr off => Sys2Proof.Machine.execSti sr off s
  | .jmp _ base _ => Sys2Proof.Machine.execJmp base s
  | .reserved _ => Sys2Proof.Machine.execReserved s
  | .lea dr off => Sys2Proof.Machine.execLea dr off s
  | .trap _ vect => Sys2Proof.Machine.execTrap vect s

end Sys2Proof.Machine
end

