-- ==== Sys2Proof/Machine/Step.lean ====
section
/-! DEFINITION. One step (R76), and how the host places the next instruction. -/

namespace Sys2Proof.Machine

/-- One step (R76): a launch state outside the spec is refused (R39); the fault latch is tested first, then the
running flag (R179); then fetch, advance PC, decode, execute. Of the four outcomes of R192, Ok is a next state with
the latch clear, Failed is a next state with the latch set (and the fault `failed` at every later step), Held is a fault that
leaves the state as it was (log entry 6), and Diverged is a fault after which there is no state (log entry 20). -/
def step (s : State) : Host.Outcome State Fault Refusal :=
  if condLegal s.cond then
    match s.faultLatch with
    | some record => .fault (.failed record)
    | none => if s.running then exec (decode s.fetch.1) s.fetch.2 else .next s
  else .refused .illegalCond

/-- `s` with the instruction word of the table's numbering stored at PC, where `step` fetches next (R24). A program
is loaded into this machine from outside (R211; log entry 12): this is a one-word load. It changes nothing else.
Where PC is KBSR in LIVE mode the fetch's poll overwrites the word (R45; log entry 12). -/
def State.withFetchWord (s : State) (nbits w : Nat) : State :=
  s.memWrite s.pc (BitVec.ofNat 16 (w % 2 ^ nbits))

end Sys2Proof.Machine
end

