-- ==== Sys2Proof/Machine/HostPort.lean ====
section
/-! DEFINITION. The host's transactions (R190 to R193; the loader R203 to R210): each one indivisible and between
steps. None of them but `hostStep` and `runFor` steps the core. -/

namespace Sys2Proof.Machine

/-- Why an image load fails (R170, R209). -/
inductive ImageLoadError where
  /-- The file cannot be opened. -/
  | cannotOpen
  /-- The origin cannot be read. -/
  | originMissing
  /-- The data would overflow the 65536-word address space. -/
  | tooLarge
  deriving DecidableEq, Repr

/-- How a transaction that steps the core ends, with a return of type `ρ`. -/
inductive Answer (ρ : Type) where
  /-- It returns `r` and leaves the state `t`: the host may send its next transaction there. -/
  | returns (r : ρ) (t : State)
  /-- A step of it is Diverged (R152, R192): it never returns, and no transaction may overlap a step (R190), so there is
  no state in which a later one could be sent. Nothing lifts it. DEDUCED, log entry 20. -/
  | diverged
  deriving DecidableEq, Repr

/-- What the host's next transaction `f` answers, sent in the state the first one left: after one that is Diverged it is
never sent (R190, R192; log entry 20). -/
def Answer.andThen {ρ σ : Type} (first : Answer ρ) (f : State → Answer σ) : Answer σ :=
  match first with
  | .returns _ t => f t
  | .diverged => .diverged

/-- What a `step` transaction returns (R192), where it returns: Diverged is `Answer.diverged`. -/
inductive StepReturn where
  | ok
  | failed (record : Failure)
  | held
  | refused (r : Refusal)
  deriving DecidableEq, Repr

/-- What `run` returns (R191), where it returns. `running` is no return of the block's: `run` has not returned within
the steps given. -/
inductive RunReturn where
  | ok
  | failed (record : Failure)
  | held
  | refused (r : Refusal)
  | running
  deriving DecidableEq, Repr

/-- A slot of the register file (R20): R0 to R7, PC or COND. -/
inductive Slot where
  | gpr (r : Reg)
  | pc
  | cond
  deriving DecidableEq, Repr

/-- The slot a host accessor's index names (R20: indices 0 to 9). An index above 9 names none (log entry 16). -/
def slotOfIndex (i : Nat) : Option Slot :=
  if i < 8 then some (.gpr (regOfBits (BitVec.ofNat 3 i))) else if i = 8 then some .pc else if i = 9 then some .cond else none

/-- The word in a slot. -/
def State.slot (s : State) : Slot → Word
  | .gpr r => s.reg r
  | .pc => s.pc
  | .cond => s.cond

/-- The slot written; a COND outside 1, 2, 4 is refused (R39, D23). -/
def State.setSlot (s : State) (v : Word) : Slot → Option State
  | .gpr r => some (s.setReg r v)
  | .pc => some (s.setPc v)
  | .cond => if condLegal v then some { s with cond := v } else none

/-- reset: every state element to its reset value (R200). The instance's parameters and the LIVE queue, which is
host input and not core state (R39), stay. DESIGN CHOICE, log entry 13. -/
def State.hostReset (s : State) : State := { State.reset with params := s.params, inputQueue := s.inputQueue }

/-- request_halt: the running flag cleared, nothing else (R178). -/
def State.requestHalt (s : State) : State := s.halt

/-- read_reg(i) (R190). -/
def State.readReg (s : State) (i : Nat) : Option Word := (slotOfIndex i).map s.slot

/-- write_reg(i, v) (R190): none where the host may not send it. -/
def State.writeReg (s : State) (i : Nat) (v : Word) : Option State := (slotOfIndex i).bind (s.setSlot v)

/-- read_mem(a): no poll (R190). -/
def State.readMem (s : State) (a : Word) : Word := s.peek a

/-- write_mem(a, v): a plain store (R190). -/
def State.writeMem (s : State) (a v : Word) : State := s.memWrite a v

/-- give_input(c): appended to the live queue (R190). The transaction is LIVE mode's: none in INJECTED mode, where
there is no queue (R35; log entry 15). -/
def State.giveInput (s : State) (c : Byte) : Option State :=
  match s.params.inputMode with
  | .live => some { s with inputQueue := s.inputQueue ++ [c] }
  | .injected => none

/-- read_output (R190). -/
def State.readOutput (s : State) : List Byte := s.output

/-- read_status (R190). -/
def State.readStatus (s : State) : Bool × Option Failure := (s.running, s.faultLatch)

/-- The words of a byte sequence, most significant byte first (R204); a trailing odd byte is ignored (R208). -/
def imageWords : List Byte → List Word
  | hi :: lo :: rest => (hi ++ lo : BitVec 16) :: imageWords rest
  | _ => []

/-- The words stored one after another from `a` on (R203, R206), as plain stores (R205). -/
def State.storeWords (s : State) : Word → List Word → State
  | _, [] => s
  | a, w :: rest => (s.memWrite a w).storeWords (a + 1) rest

/-- load_image (R206, R209): `none` is a file that cannot be opened (log entry 17). A failed load answers the error
alone, since it leaves the state unchanged (R175). -/
def State.loadImage (s : State) (bytes : Option (List Byte)) : Except ImageLoadError State :=
  match bytes with
  | none => .error .cannotOpen
  | some bs =>
    match imageWords bs with
    | [] => .error .originMissing
    | origin :: data =>
      if 65536 < origin.toNat + data.length then .error .tooLarge
      else .ok { s.storeWords origin data with segments := s.segments ++ [(origin, data.length)] }

/-- The step transaction (R190, R192): what it returns and the state it leaves, if it returns. -/
def State.hostStep (s : State) : Answer StepReturn :=
  match step s with
  | .next t =>
    match t.faultLatch with
    | some record => .returns (.failed record) t
    | none => .returns .ok t
  | .fault (.failed record) => .returns (.failed record) s
  | .fault .held => .returns .held s
  | .fault .diverged => .diverged
  | .refused r => .returns (.refused r) s

/-- The run transaction (R191), watched for at most `n` steps; `run` itself has no bound (log entry 18). -/
def State.runFor (s : State) : Nat → Answer RunReturn
  | 0 =>
    match s.faultLatch with
    | some record => .returns (.failed record) s
    | none => if s.running then .returns .running s else .returns .ok s
  | n + 1 =>
    match s.faultLatch with
    | some record => .returns (.failed record) s
    | none =>
      if s.running then
        match step s with
        | .next t => t.runFor n
        | .fault (.failed record) => .returns (.failed record) s
        | .fault .held => .returns .held s
        | .fault .diverged => .diverged
        | .refused r => .returns (.refused r) s
      else .returns .ok s

end Sys2Proof.Machine
end

