-- ==== Sys2Proof/Safety.lean ====
section
/-! DEFINITION. The terms claims are stated in: frames, the states in which an instruction runs, the state
invariant, the unbounded scan of R145 and R147, and what a good end of a run is (R193). -/

namespace Sys2Proof.Machine

/-! ### Frames -/

/-- Every word of memory reads as before. -/
def State.SameMemory (s t : State) : Prop := ∀ a : Word, t.peek a = s.peek a

/-- Every general register holds what it held. -/
def State.SameRegs (s t : State) : Prop := ∀ r : Reg, t.reg r = s.reg r

/-- Every general register but `dr` holds what it held. -/
def State.SameRegsBut (s t : State) (dr : Reg) : Prop := ∀ r : Reg, r ≠ dr → t.reg r = s.reg r

/-- The running flag, the fault latch, the output sink, the segment record and the parameters are unchanged: the
state that only HALT, a failure, an output service or the host may change. -/
structure State.Quiet (s t : State) : Prop where
  running : t.running = s.running
  faultLatch : t.faultLatch = s.faultLatch
  output : t.output = s.output
  segments : t.segments = s.segments
  params : t.params = s.params

/-- The condition code R27 gives a value: 2 for zero, 4 where bit 15 is set, 1 otherwise. -/
def flagFor (v : Word) : Word := if v = 0 then 2 else if v.getLsbD 15 then 4 else 1

/-- From `s`, whose reads left `m`, to `t`: DR holds `v`, COND is set from `v`, and nothing else changed but what the
reads changed in memory and in the queue. For an instruction that reads no memory, `m` is `s`. -/
structure State.ResultIn (s m t : State) (dr : Reg) (v : Word) : Prop where
  result : t.reg dr = v
  cond : t.cond = flagFor v
  regs : s.SameRegsBut t dr
  pc : t.pc = s.pc
  memory : m.SameMemory t
  queue : t.inputQueue = m.inputQueue
  quiet : s.Quiet t

/-- From `s`, whose reads left `m`, to `t`: the word at `ea` is `v`, every other word is as the reads left it, and no
register, flag or other state changed. -/
structure State.StoredAt (s m t : State) (ea v : Word) : Prop where
  memory : ∀ a : Word, t.peek a = if a = ea then v else m.peek a
  regs : s.SameRegs t
  cond : t.cond = s.cond
  pc : t.pc = s.pc
  queue : t.inputQueue = m.inputQueue
  quiet : s.Quiet t

/-- From `s` to `t` only PC may have changed. -/
structure State.OnlyPc (s t : State) : Prop where
  regs : s.SameRegs t
  cond : t.cond = s.cond
  memory : s.SameMemory t
  queue : t.inputQueue = s.inputQueue
  quiet : s.Quiet t

/-- From `s` to `t` only R7, now the return address, and PC may have changed. -/
structure State.OnlyLinkAndPc (s t : State) : Prop where
  link : t.reg .r7 = s.pc
  regs : s.SameRegsBut t .r7
  cond : t.cond = s.cond
  memory : s.SameMemory t
  queue : t.inputQueue = s.inputQueue
  quiet : s.Quiet t

/-! ### Runs -/

/-- A state in which `step` runs an instruction: COND is legal (R39), the latch is clear and the flag is set (R76). -/
def State.Ready (s : State) : Prop := condLegal s.cond = true ∧ s.faultLatch = none ∧ s.running = true

/-- A character is available to GETC and IN (R142). -/
def State.CharReady (s : State) : Prop :=
  (s.params.inputMode = .live ∧ s.inputQueue ≠ []) ∨
  (s.params.inputMode = .injected ∧ (s.peek kbsr).getLsbD 15 = true)

/-- A run that ended well: halted, with no failure recorded (R193). -/
def State.endedWell (s : State) : Prop := s.running = false ∧ s.faultLatch = none

/-- What the latch may record, and where a failure leaves PC and R7 (R171, R172). -/
def State.LatchLegal (s : State) : Prop :=
  match s.faultLatch with
  | none => True
  | some (.illegalOpcode op addr) => (op = 8 ∨ op = 13) ∧ s.pc = addr + 1
  | some (.unknownTrap vec addr) => (vec.toNat < 0x20 ∨ 0x25 < vec.toNat) ∧ s.pc = addr + 1 ∧ s.reg .r7 = addr + 1

/-- The invariant of the machine: memory in canonical form, COND one of its three values (R28), the latch legal. -/
def State.Inv (s : State) : Prop := s.mem.wf ∧ (s.cond = 1 ∨ s.cond = 2 ∨ s.cond = 4) ∧ s.LatchLegal

/-! ### The string scan without a bound -/

/-- The loop of R145 and R147, as the spec writes it: it stops at the first zero word it reads, and otherwise emits
the word's bytes and goes on at the next address. `ScanEnds bytes a s t`: from address `a` and state `s` it ends in `t`. -/
inductive ScanEnds (bytes : Word → List Byte) : Word → State → State → Prop where
  | stop (a : Word) (s : State) : (s.memRead a).1 = 0 → ScanEnds bytes a s (s.memRead a).2
  | more (a : Word) (s t : State) : (s.memRead a).1 ≠ 0 →
      ScanEnds bytes (a + 1) ((s.memRead a).2.out (bytes (s.memRead a).1)) t → ScanEnds bytes a s t

end Sys2Proof.Machine
end

