-- ==== Sys2Proof/Certificates/Slice0/Obligations.lean ====
section
/-! DEFINITION. The statements for the provers. In every statement about exec, PC already holds the address of the
instruction plus 1 (R24), as `step` leaves it after the fetch. -/

open Sys2Proof Sys2Proof.Machine

/-! ### Decoding and encoding -/

/-- Decoding loses no bit: every instruction, with every operand and every ignored bit, comes back from its word. The
field positions are the spec's derivation and its decisions D27 and D28 (log entry 14). -/
def Obligations.DecodeAfterEncodeIsIdentity : Prop := ∀ i : Instr, decode (encode i) = i

/-- Every one of the 65536 words is the word of the instruction it decodes to, so no two words are one instruction. The
field positions are the spec's decisions D27 and D28 (log entry 14). -/
def Obligations.EncodeAfterDecodeIsIdentity : Prop := ∀ w : Word, encode (decode w) = w

/-- The words of 95_test_vectors.md decode as it says: 0x1405 (S4, C1), 0x146A, 0x5443, 0x2003 and the others its tables
spell out; and a 3-bit register field whose value is i selects Ri. -/
def Obligations.SpecWordsDecodeAsWritten : Prop :=
  regOfBits 0 = .r0 ∧ regOfBits 1 = .r1 ∧ regOfBits 2 = .r2 ∧ regOfBits 3 = .r3 ∧
  regOfBits 4 = .r4 ∧ regOfBits 5 = .r5 ∧ regOfBits 6 = .r6 ∧ regOfBits 7 = .r7 ∧
  decode 0x1405 = .addReg .r2 .r0 0 .r5 ∧ decode 0x146A = .addImm .r2 .r1 10 ∧ decode 0x5443 = .andReg .r2 .r1 0 .r3 ∧
  decode 0x52BF = .andImm .r1 .r2 0x1F ∧ decode 0x92BF = .not .r1 .r2 0x3F ∧ decode 0x2003 = .ld .r0 3 ∧
  decode 0xA201 = .ldi .r1 1 ∧ decode 0x647F = .ldr .r2 .r1 0x3F ∧ decode 0xE205 = .lea .r1 5 ∧
  decode 0x31FF = .st .r0 0x1FF ∧ decode 0xB402 = .sti .r2 2 ∧ decode 0x771F = .str .r3 .r4 0x1F ∧
  decode 0x05FD = .br 2 0x1FD ∧ decode 0xC1C0 = .jmp 0 .r7 0 ∧ decode 0x4803 = .jsr 3 ∧ decode 0x40C0 = .jsrr 0 .r3 0 ∧
  decode 0xF025 = .trap 0 0x25 ∧ decode 0x8000 = .rti 0 ∧ decode 0xD123 = .reserved 0x123

/-- Two words that differ only in bits their instruction ignores have the same effect in every state: [4:3] of ADD
and AND register mode, [5:0] of NOT, [11:9] and [5:0] of JMP, [10:9] and [5:0] of JSRR, [11:8] of TRAP, [11:0] of RTI and
the reserved opcode. That they are ignored is the spec's decision D21 (D20 for TRAP). -/
def Obligations.IgnoredBitsChangeNothing : Prop :=
  ∀ (w v : Word) (s : State), w.extractLsb' 12 4 = v.extractLsb' 12 4 →
    ((w.extractLsb' 12 4 = 1#4 ∨ w.extractLsb' 12 4 = 5#4) ∧ w.getLsbD 5 = false ∧ v.getLsbD 5 = false ∧
        w.extractLsb' 5 7 = v.extractLsb' 5 7 ∧ w.extractLsb' 0 3 = v.extractLsb' 0 3) ∨
      (w.extractLsb' 12 4 = 9#4 ∧ w.extractLsb' 6 6 = v.extractLsb' 6 6) ∨
      (w.extractLsb' 12 4 = 12#4 ∧ w.extractLsb' 6 3 = v.extractLsb' 6 3) ∨
      (w.extractLsb' 12 4 = 4#4 ∧ w.getLsbD 11 = false ∧ v.getLsbD 11 = false ∧ w.extractLsb' 6 3 = v.extractLsb' 6 3) ∨
      (w.extractLsb' 12 4 = 15#4 ∧ w.extractLsb' 0 8 = v.extractLsb' 0 8) ∨
      w.extractLsb' 12 4 = 8#4 ∨ w.extractLsb' 12 4 = 13#4 →
    exec (decode w) s = exec (decode v) s

/-! ### Operands and flags -/

/-- sext_b keeps the low b bits of a word and copies bit b-1 into every higher bit, for b from 1 to 16. -/
def Obligations.SignExtensionCopiesTheTopBit : Prop :=
  ∀ (x : Word) (b : Nat), 1 ≤ b → b ≤ 16 →
    (∀ j, j < b → (sext b x).getLsbD j = x.getLsbD j) ∧ (∀ j, b ≤ j → j < 16 → (sext b x).getLsbD j = x.getLsbD (b - 1))

/-- setcc writes ZRO for zero, else NEG where bit 15 is set, else POS, and writes nothing but COND. -/
def Obligations.SetccRule : Prop :=
  ∀ (s : State) (v : Word),
    (v = 0 → (s.setcc v).cond = 2) ∧ (v ≠ 0 → v.getLsbD 15 = true → (s.setcc v).cond = 4) ∧
    (v ≠ 0 → v.getLsbD 15 = false → (s.setcc v).cond = 1) ∧
    s.SameRegs (s.setcc v) ∧ s.SameMemory (s.setcc v) ∧ (s.setcc v).pc = s.pc ∧
    (s.setcc v).inputQueue = s.inputQueue ∧ s.Quiet (s.setcc v)

/-! ### Memory and the keyboard -/

/-- A read returns the word stored at its address. At KBSR it polls first and returns KBSR's word after the poll; at any
other address it changes nothing at all. -/
def Obligations.ReadReturnsTheStoredWord : Prop :=
  ∀ s : State, s.memRead 0xFE00 = (s.poll.peek 0xFE00, s.poll) ∧ ∀ a : Word, a ≠ 0xFE00 → s.memRead a = (s.peek a, s)

/-- A write stores its word at its address, at every address, KBSR and KBDR included; every other word, and every
other part of the state, the input queue too, is unchanged. -/
def Obligations.WriteIsAPlainStore : Prop :=
  ∀ (s : State) (a v : Word),
    (∀ b : Word, (s.memWrite a v).peek b = if b = a then v else s.peek b) ∧ s.SameRegs (s.memWrite a v) ∧
    (s.memWrite a v).pc = s.pc ∧ (s.memWrite a v).cond = s.cond ∧ (s.memWrite a v).inputQueue = s.inputQueue ∧
    s.Quiet (s.memWrite a v)

/-- A read of KBSR polls and returns KBSR's word after the poll. LIVE with a byte c queued: c leaves the queue, KBDR is
c zero-extended and KBSR is 0x8000; LIVE with none: KBSR is 0 and KBDR is unchanged; INJECTED: nothing changes.
The words written are the spec's decisions D10, D11 and D13. -/
def Obligations.KbsrReadPolls : Prop :=
  ∀ s : State,
    (∀ c rest, s.params.inputMode = .live → s.inputQueue = c :: rest →
      (s.memRead 0xFE00).1 = 0x8000 ∧ (s.memRead 0xFE00).2.inputQueue = rest ∧
      ∀ a : Word, (s.memRead 0xFE00).2.peek a =
        if a = 0xFE00 then 0x8000 else if a = 0xFE02 then BitVec.ofNat 16 c.toNat else s.peek a) ∧
    (s.params.inputMode = .live → s.inputQueue = [] →
      (s.memRead 0xFE00).1 = 0 ∧ (s.memRead 0xFE00).2.inputQueue = [] ∧
      ∀ a : Word, (s.memRead 0xFE00).2.peek a = if a = 0xFE00 then 0 else s.peek a) ∧
    (s.params.inputMode = .injected → s.memRead 0xFE00 = (s.peek 0xFE00, s)) ∧
    s.SameRegs (s.memRead 0xFE00).2 ∧ (s.memRead 0xFE00).2.pc = s.pc ∧ (s.memRead 0xFE00).2.cond = s.cond ∧
    s.Quiet (s.memRead 0xFE00).2

/-! ### Operate instructions -/

/-- ADD, register mode: its words and its effect. -/
def Obligations.AddRegister : Prop :=
  (∀ w : Word, w.extractLsb' 12 4 = 1#4 → w.getLsbD 5 = false →
    decode w = .addReg (regOfBits (w.extractLsb' 9 3)) (regOfBits (w.extractLsb' 6 3)) (w.extractLsb' 3 2)
      (regOfBits (w.extractLsb' 0 3))) ∧
  ∀ (dr sr1 sr2 : Reg) (spare : BitVec 2) (s : State),
    ∃ t, exec (.addReg dr sr1 spare sr2) s = .next t ∧ s.ResultIn s t dr (s.reg sr1 + s.reg sr2)

/-- ADD, immediate mode: its words and its effect; the operand is imm5's signed value, -16 to 15. -/
def Obligations.AddImmediate : Prop :=
  (∀ w : Word, w.extractLsb' 12 4 = 1#4 → w.getLsbD 5 = true →
    decode w = .addImm (regOfBits (w.extractLsb' 9 3)) (regOfBits (w.extractLsb' 6 3)) (w.extractLsb' 0 5)) ∧
  ∀ (dr sr1 : Reg) (imm : BitVec 5) (s : State),
    ∃ t, exec (.addImm dr sr1 imm) s = .next t ∧ s.ResultIn s t dr (s.reg sr1 + BitVec.ofInt 16 imm.toInt)

/-- AND, register mode: its words and its effect. -/
def Obligations.AndRegister : Prop :=
  (∀ w : Word, w.extractLsb' 12 4 = 5#4 → w.getLsbD 5 = false →
    decode w = .andReg (regOfBits (w.extractLsb' 9 3)) (regOfBits (w.extractLsb' 6 3)) (w.extractLsb' 3 2)
      (regOfBits (w.extractLsb' 0 3))) ∧
  ∀ (dr sr1 sr2 : Reg) (spare : BitVec 2) (s : State),
    ∃ t, exec (.andReg dr sr1 spare sr2) s = .next t ∧ s.ResultIn s t dr (s.reg sr1 &&& s.reg sr2)

/-- AND, immediate mode: its words and its effect. -/
def Obligations.AndImmediate : Prop :=
  (∀ w : Word, w.extractLsb' 12 4 = 5#4 → w.getLsbD 5 = true →
    decode w = .andImm (regOfBits (w.extractLsb' 9 3)) (regOfBits (w.extractLsb' 6 3)) (w.extractLsb' 0 5)) ∧
  ∀ (dr sr1 : Reg) (imm : BitVec 5) (s : State),
    ∃ t, exec (.andImm dr sr1 imm) s = .next t ∧ s.ResultIn s t dr (s.reg sr1 &&& BitVec.ofInt 16 imm.toInt)

/-- NOT: its words and its effect, the complement of all 16 bits. -/
def Obligations.NotComplement : Prop :=
  (∀ w : Word, w.extractLsb' 12 4 = 9#4 →
    decode w = .not (regOfBits (w.extractLsb' 9 3)) (regOfBits (w.extractLsb' 6 3)) (w.extractLsb' 0 6)) ∧
  ∀ (dr sr : Reg) (spare : BitVec 6) (s : State),
    ∃ t, exec (.not dr sr spare) s = .next t ∧ s.ResultIn s t dr (0xFFFF ^^^ s.reg sr)

/-! ### Data movement -/

/-- LD: its words and its effect; the read is a MemRead, so it polls at KBSR. -/
def Obligations.LoadPcRelative : Prop :=
  (∀ w : Word, w.extractLsb' 12 4 = 2#4 → decode w = .ld (regOfBits (w.extractLsb' 9 3)) (w.extractLsb' 0 9)) ∧
  ∀ (dr : Reg) (off : BitVec 9) (s : State),
    ∃ t, exec (.ld dr off) s = .next t ∧
      s.ResultIn (s.memRead (s.pc + BitVec.ofInt 16 off.toInt)).2 t dr (s.memRead (s.pc + BitVec.ofInt 16 off.toInt)).1

/-- LDI: its words and its effect; the pointer is read first, the data second, in the state the first read left. -/
def Obligations.LoadIndirect : Prop :=
  (∀ w : Word, w.extractLsb' 12 4 = 10#4 → decode w = .ldi (regOfBits (w.extractLsb' 9 3)) (w.extractLsb' 0 9)) ∧
  ∀ (dr : Reg) (off : BitVec 9) (s m1 m2 : State) (ea v : Word),
    s.memRead (s.pc + BitVec.ofInt 16 off.toInt) = (ea, m1) → m1.memRead ea = (v, m2) →
    ∃ t, exec (.ldi dr off) s = .next t ∧ s.ResultIn m2 t dr v

/-- LDR: its words and its effect; offset6's signed value is -32 to 31. -/
def Obligations.LoadBaseOffset : Prop :=
  (∀ w : Word, w.extractLsb' 12 4 = 6#4 →
    decode w = .ldr (regOfBits (w.extractLsb' 9 3)) (regOfBits (w.extractLsb' 6 3)) (w.extractLsb' 0 6)) ∧
  ∀ (dr base : Reg) (off : BitVec 6) (s : State),
    ∃ t, exec (.ldr dr base off) s = .next t ∧
      s.ResultIn (s.memRead (s.reg base + BitVec.ofInt 16 off.toInt)).2 t dr
        (s.memRead (s.reg base + BitVec.ofInt 16 off.toInt)).1

/-- LEA: its words and its effect; it reads no memory and sets COND from the address. -/
def Obligations.LoadEffectiveAddress : Prop :=
  (∀ w : Word, w.extractLsb' 12 4 = 14#4 → decode w = .lea (regOfBits (w.extractLsb' 9 3)) (w.extractLsb' 0 9)) ∧
  ∀ (dr : Reg) (off : BitVec 9) (s : State),
    ∃ t, exec (.lea dr off) s = .next t ∧ s.ResultIn s t dr (s.pc + BitVec.ofInt 16 off.toInt)

/-- ST: its words and its effect, a plain store of SR at the incremented PC plus PCoffset9. -/
def Obligations.StorePcRelative : Prop :=
  (∀ w : Word, w.extractLsb' 12 4 = 3#4 → decode w = .st (regOfBits (w.extractLsb' 9 3)) (w.extractLsb' 0 9)) ∧
  ∀ (sr : Reg) (off : BitVec 9) (s : State),
    ∃ t, exec (.st sr off) s = .next t ∧ s.StoredAt s t (s.pc + BitVec.ofInt 16 off.toInt) (s.reg sr)

/-- STI: its words and its effect; the pointer is read (polling at KBSR), then SR is stored plainly where it points. -/
def Obligations.StoreIndirect : Prop :=
  (∀ w : Word, w.extractLsb' 12 4 = 11#4 → decode w = .sti (regOfBits (w.extractLsb' 9 3)) (w.extractLsb' 0 9)) ∧
  ∀ (sr : Reg) (off : BitVec 9) (s m : State) (ea : Word),
    s.memRead (s.pc + BitVec.ofInt 16 off.toInt) = (ea, m) →
    ∃ t, exec (.sti sr off) s = .next t ∧ s.StoredAt m t ea (s.reg sr)

/-- STR: its words and its effect, a plain store of SR at BaseR plus offset6. -/
def Obligations.StoreBaseOffset : Prop :=
  (∀ w : Word, w.extractLsb' 12 4 = 7#4 →
    decode w = .str (regOfBits (w.extractLsb' 9 3)) (regOfBits (w.extractLsb' 6 3)) (w.extractLsb' 0 6)) ∧
  ∀ (sr base : Reg) (off : BitVec 6) (s : State),
    ∃ t, exec (.str sr base off) s = .next t ∧ s.StoredAt s t (s.reg base + BitVec.ofInt 16 off.toInt) (s.reg sr)

/-! ### Control transfer -/

/-- BR: its words and its effect; bit 11 matches NEG = 4, bit 10 ZRO = 2, bit 9 POS = 1. nzp = 000 never branches, and
nzp = 111 always does where COND is legal. -/
def Obligations.BranchOnCondition : Prop :=
  (∀ w : Word, w.extractLsb' 12 4 = 0#4 → decode w = .br (w.extractLsb' 9 3) (w.extractLsb' 0 9)) ∧
  (∀ (nzp : BitVec 3) (off : BitVec 9) (s : State),
    ∃ t, exec (.br nzp off) s = .next t ∧ s.OnlyPc t ∧
      t.pc = if nzp.setWidth 16 &&& s.cond ≠ 0 then s.pc + BitVec.ofInt 16 off.toInt else s.pc) ∧
  (∀ (off : BitVec 9) (s : State), exec (.br 0 off) s = .next s) ∧
  ∀ (off : BitVec 9) (s : State), s.cond = 1 ∨ s.cond = 2 ∨ s.cond = 4 →
    ∃ t, exec (.br 7 off) s = .next t ∧ t.pc = s.pc + BitVec.ofInt 16 off.toInt

/-- JMP: its words and its effect; RET is the case BaseR = R7. -/
def Obligations.JumpToBase : Prop :=
  (∀ w : Word, w.extractLsb' 12 4 = 12#4 →
    decode w = .jmp (w.extractLsb' 9 3) (regOfBits (w.extractLsb' 6 3)) (w.extractLsb' 0 6)) ∧
  ∀ (hi : BitVec 3) (base : Reg) (lo : BitVec 6) (s : State),
    ∃ t, exec (.jmp hi base lo) s = .next t ∧ s.OnlyPc t ∧ t.pc = s.reg base

/-- JSR: its words and its effect; R7 takes the return address and COND is not touched. -/
def Obligations.JumpToSubroutine : Prop :=
  (∀ w : Word, w.extractLsb' 12 4 = 4#4 → w.getLsbD 11 = true → decode w = .jsr (w.extractLsb' 0 11)) ∧
  ∀ (off : BitVec 11) (s : State),
    ∃ t, exec (.jsr off) s = .next t ∧ s.OnlyLinkAndPc t ∧ t.pc = s.pc + BitVec.ofInt 16 off.toInt

/-- JSRR: its words and its effect. For BaseR other than R7 both settings of JSRR_READS_BASE_FIRST jump to BaseR; JSRR R7
falls through when it is false, the spec's decision D22, and jumps to the old R7 when it is true. -/
def Obligations.JumpToSubroutineRegister : Prop :=
  (∀ w : Word, w.extractLsb' 12 4 = 4#4 → w.getLsbD 11 = false →
    decode w = .jsrr (w.extractLsb' 9 2) (regOfBits (w.extractLsb' 6 3)) (w.extractLsb' 0 6)) ∧
  ∀ (hi : BitVec 2) (base : Reg) (lo : BitVec 6) (s : State),
    ∃ t, exec (.jsrr hi base lo) s = .next t ∧ s.OnlyLinkAndPc t ∧
      t.pc = if base = .r7 ∧ s.params.jsrrReadsBaseFirst = false then s.pc else s.reg base

/-- A return by JMP R7 goes back to the instruction after the JSR or JSRR. Derived by the spec from its rules on the
three instructions. -/
def Obligations.ReturnAfterCall : Prop :=
  ∀ (off : BitVec 11) (hi : BitVec 2) (base : Reg) (lo : BitVec 6) (hi' : BitVec 3) (lo' : BitVec 6) (s t : State),
    exec (.jsr off) s = .next t ∨ exec (.jsrr hi base lo) s = .next t →
    ∃ u, exec (.jmp hi' .r7 lo') t = .next u ∧ u.pc = s.pc

/-! ### TRAP -/

/-- TRAP's words, and GETC: R7 is the return address, R0 the character zero-extended, COND ZRO for 0x00 and POS
otherwise, nothing output. LIVE takes the next queued byte; INJECTED takes KBDR's low byte when KBSR bit 15 is set and
clears KBSR; with no character the step is held. The decisions D12 and D13 are the spec's. -/
def Obligations.TrapGetc : Prop :=
  (∀ w : Word, w.extractLsb' 12 4 = 15#4 → decode w = .trap (w.extractLsb' 8 4) (w.extractLsb' 0 8)) ∧
  (∀ (spare : BitVec 4) (s : State) (c : Byte) (rest : List Byte),
    s.params.inputMode = .live → s.inputQueue = c :: rest →
    ∃ t, exec (.trap spare 0x20) s = .next t ∧ t.reg .r0 = BitVec.ofNat 16 c.toNat ∧ t.reg .r7 = s.pc ∧
      (∀ r, r ≠ .r0 → r ≠ .r7 → t.reg r = s.reg r) ∧ t.cond = (if c = 0 then 2 else 1) ∧ t.pc = s.pc ∧
      s.SameMemory t ∧ t.inputQueue = rest ∧ s.Quiet t) ∧
  (∀ (spare : BitVec 4) (s : State), s.params.inputMode = .injected → (s.peek 0xFE00).getLsbD 15 = true →
    ∃ t, exec (.trap spare 0x20) s = .next t ∧ t.reg .r0 = s.peek 0xFE02 &&& 0x00FF ∧ t.reg .r7 = s.pc ∧
      (∀ r, r ≠ .r0 → r ≠ .r7 → t.reg r = s.reg r) ∧
      t.cond = (if s.peek 0xFE02 &&& 0x00FF = 0 then 2 else 1) ∧ t.pc = s.pc ∧
      (∀ a : Word, t.peek a = if a = 0xFE00 then 0 else s.peek a) ∧ t.inputQueue = s.inputQueue ∧ s.Quiet t) ∧
  ∀ (spare : BitVec 4) (s : State), ¬ s.CharReady → exec (.trap spare 0x20) s = .fault .held

/-- IN: as GETC, and the prompt and then the character are appended to the output; a held IN outputs nothing.
The order and the timing are the spec's decisions D12, D13 and D14; the prompt is any string. -/
def Obligations.TrapIn : Prop :=
  (∀ (spare : BitVec 4) (s : State) (c : Byte) (rest : List Byte),
    s.params.inputMode = .live → s.inputQueue = c :: rest →
    ∃ t, exec (.trap spare 0x23) s = .next t ∧ t.output = s.output ++ s.params.inPrompt ++ [c] ∧
      t.reg .r0 = BitVec.ofNat 16 c.toNat ∧ t.reg .r7 = s.pc ∧ (∀ r, r ≠ .r0 → r ≠ .r7 → t.reg r = s.reg r) ∧
      t.cond = (if c = 0 then 2 else 1) ∧ t.pc = s.pc ∧ s.SameMemory t ∧ t.inputQueue = rest ∧
      t.running = s.running ∧ t.faultLatch = s.faultLatch ∧ t.segments = s.segments ∧ t.params = s.params) ∧
  (∀ (spare : BitVec 4) (s : State), s.params.inputMode = .injected → (s.peek 0xFE00).getLsbD 15 = true →
    ∃ t, exec (.trap spare 0x23) s = .next t ∧
      t.output = s.output ++ s.params.inPrompt ++ [(s.peek 0xFE02).extractLsb' 0 8] ∧
      t.reg .r0 = s.peek 0xFE02 &&& 0x00FF ∧ t.reg .r7 = s.pc ∧ (∀ r, r ≠ .r0 → r ≠ .r7 → t.reg r = s.reg r) ∧
      t.cond = (if s.peek 0xFE02 &&& 0x00FF = 0 then 2 else 1) ∧ t.pc = s.pc ∧
      (∀ a : Word, t.peek a = if a = 0xFE00 then 0 else s.peek a) ∧ t.inputQueue = s.inputQueue ∧
      t.running = s.running ∧ t.faultLatch = s.faultLatch ∧ t.segments = s.segments ∧ t.params = s.params) ∧
  ∀ (spare : BitVec 4) (s : State), ¬ s.CharReady → exec (.trap spare 0x23) s = .fault .held

/-- OUT: R0's low byte is appended to the output, any byte, 0x00 too, the spec's decision D16; R7 is the return address;
nothing else. -/
def Obligations.TrapOut : Prop :=
  ∀ (spare : BitVec 4) (s : State),
    ∃ t, exec (.trap spare 0x21) s = .next t ∧ t.output = s.output ++ [(s.reg .r0).extractLsb' 0 8] ∧
      t.reg .r7 = s.pc ∧ s.SameRegsBut t .r7 ∧ t.cond = s.cond ∧ t.pc = s.pc ∧ s.SameMemory t ∧
      t.inputQueue = s.inputQueue ∧ t.running = s.running ∧ t.faultLatch = s.faultLatch ∧ t.segments = s.segments ∧
      t.params = s.params

/-- HALT: the halt notice, any string, is appended, the running flag is cleared, R7 is the return address and PC stays
there; no fault is recorded and nothing else changes. A step after it is a no-op. That the notice is a parameter is the
spec's decision D15. -/
def Obligations.TrapHalt : Prop :=
  ∀ (spare : BitVec 4) (s : State),
    ∃ t, exec (.trap spare 0x25) s = .next t ∧ t.output = s.output ++ s.params.haltNotice ∧ t.running = false ∧
      t.reg .r7 = s.pc ∧ s.SameRegsBut t .r7 ∧ t.cond = s.cond ∧ t.pc = s.pc ∧ s.SameMemory t ∧
      t.inputQueue = s.inputQueue ∧ t.faultLatch = s.faultLatch ∧ t.segments = s.segments ∧ t.params = s.params ∧
      (condLegal s.cond = true → s.faultLatch = none → step t = .next t)

/-- A vector outside 0x20 to 0x25 records UnknownTrap with the vector and the address of the TRAP, PC - 1; the R7 write
before the dispatch stays, as the spec decides in D6, and nothing else changes. -/
def Obligations.TrapUnknownVector : Prop :=
  ∀ (spare : BitVec 4) (vect : BitVec 8) (s : State), vect.toNat < 0x20 ∨ 0x25 < vect.toNat →
    ∃ t, exec (.trap spare vect) s = .next t ∧ t.faultLatch = some (.unknownTrap vect (s.pc - 1)) ∧
      t.reg .r7 = s.pc ∧ s.SameRegsBut t .r7 ∧ t.cond = s.cond ∧ t.pc = s.pc ∧ s.SameMemory t ∧
      t.inputQueue = s.inputQueue ∧ t.running = s.running ∧ t.output = s.output ∧ t.segments = s.segments ∧
      t.params = s.params

/-- PUTS and PUTSP over a string of n nonzero words and then a zero word, none of them KBSR (or in INJECTED mode, where
the scan's reads change nothing): they complete, append the string's bytes in order and change nothing else but R7.
Addresses wrap. Which bytes a word gives is the spec's decisions D16 and D17. -/
def Obligations.TrapPutsAndPutspEmitTheString : Prop :=
  ∀ (spare : BitVec 4) (s : State) (n : Nat),
    s.peek (s.reg .r0 + BitVec.ofNat 16 n) = 0 → (∀ k, k < n → s.peek (s.reg .r0 + BitVec.ofNat 16 k) ≠ 0) →
    (s.params.inputMode = .injected ∨ ∀ k, k ≤ n → s.reg .r0 + BitVec.ofNat 16 k ≠ 0xFE00) →
    (∃ t, exec (.trap spare 0x22) s = .next t ∧ s.OnlyLinkAndPc { t with output := s.output } ∧ t.pc = s.pc ∧
      t.output = s.output ++ (List.range n).map (fun k => (s.peek (s.reg .r0 + BitVec.ofNat 16 k)).extractLsb' 0 8)) ∧
    (∃ t, exec (.trap spare 0x24) s = .next t ∧ s.OnlyLinkAndPc { t with output := s.output } ∧ t.pc = s.pc ∧
      t.output = s.output ++ (List.range n).flatMap (fun k =>
        let w := s.peek (s.reg .r0 + BitVec.ofNat 16 k)
        if w.extractLsb' 8 8 = 0 then [w.extractLsb' 0 8] else [w.extractLsb' 0 8, w.extractLsb' 8 8]))

/-- PUTS and PUTSP run exactly the unbounded loop of the spec, polls of KBSR and wraps included: they answer the state
the loop ends in, and they are Diverged exactly when the loop ends in no state. The bound the model counts down is never
seen. The loop's bytes, polls and divergence are the spec's decisions D8 and D16 to D18; the bound is the model's (log
entry 7). -/
def Obligations.PutsAndPutspRunTheUnboundedScan : Prop :=
  ∀ (spare : BitVec 4) (s : State),
    (∀ t, exec (.trap spare 0x22) s = .next t ↔ ScanEnds (fun w => [w.extractLsb' 0 8]) (s.reg .r0) (s.setReg .r7 s.pc) t) ∧
    (exec (.trap spare 0x22) s = .fault .diverged ↔
      ¬ ∃ t, ScanEnds (fun w => [w.extractLsb' 0 8]) (s.reg .r0) (s.setReg .r7 s.pc) t) ∧
    (∀ t, exec (.trap spare 0x24) s = .next t ↔
      ScanEnds (fun w => if w.extractLsb' 8 8 = 0 then [w.extractLsb' 0 8] else [w.extractLsb' 0 8, w.extractLsb' 8 8])
        (s.reg .r0) (s.setReg .r7 s.pc) t) ∧
    (exec (.trap spare 0x24) s = .fault .diverged ↔
      ¬ ∃ t, ScanEnds
        (fun w => if w.extractLsb' 8 8 = 0 then [w.extractLsb' 0 8] else [w.extractLsb' 0 8, w.extractLsb' 8 8])
        (s.reg .r0) (s.setReg .r7 s.pc) t)

/-- In LIVE mode PUTS and PUTSP always end, whatever memory and the queue hold. It rests on the spec's decisions D8, D10
and D18. -/
def Obligations.ScansAlwaysEndInLiveMode : Prop :=
  ∀ (spare : BitVec 4) (s : State), s.params.inputMode = .live →
    (∃ t, exec (.trap spare 0x22) s = .next t) ∧ ∃ t, exec (.trap spare 0x24) s = .next t

/-- In INJECTED mode PUTS and PUTSP end if and only if some word of memory is zero, and are Diverged otherwise. It rests
on the spec's decisions D11 and D18. -/
def Obligations.ScansEndIffAWordIsZeroInInjectedMode : Prop :=
  ∀ (spare : BitVec 4) (s : State), s.params.inputMode = .injected →
    ((∃ t, exec (.trap spare 0x22) s = .next t) ↔ ∃ a : Word, s.peek a = 0) ∧
    ((∃ t, exec (.trap spare 0x24) s = .next t) ↔ ∃ a : Word, s.peek a = 0) ∧
    ((∀ a : Word, s.peek a ≠ 0) →
      exec (.trap spare 0x22) s = .fault .diverged ∧ exec (.trap spare 0x24) s = .fault .diverged)

/-! ### Failures -/

/-- RTI and the reserved opcode: their words, and their effect: IllegalOpcode with the opcode and the address of the
instruction, PC - 1, in the fault latch; PC keeps its post-fetch value and nothing else changes. That the record is
held in a latch, and holds the fetch address, are the spec's decisions D4 and D5. -/
def Obligations.UnimplementedOpcodesFail : Prop :=
  (∀ w : Word, w.extractLsb' 12 4 = 8#4 → decode w = .rti (w.extractLsb' 0 12)) ∧
  (∀ w : Word, w.extractLsb' 12 4 = 13#4 → decode w = .reserved (w.extractLsb' 0 12)) ∧
  (∀ (spare : BitVec 12) (s : State),
    exec (.rti spare) s = .next { s with faultLatch := some (.illegalOpcode 8 (s.pc - 1)) }) ∧
  ∀ (spare : BitVec 12) (s : State),
    exec (.reserved spare) s = .next { s with faultLatch := some (.illegalOpcode 13 (s.pc - 1)) }

/-- Failures are precise. Where a step sets the latch, it fetched the failing word at PC; after it PC is the fetch
address plus 1; the record names the fetch address; only R7 can have changed, and only for UnknownTrap, to the fetch
address plus 1; memory and the queue are as the fetch left them; COND, the flag, the output and the rest are unchanged.
The record and the R7 write are the spec's decisions D5 and D6. -/
def Obligations.FailuresArePrecise : Prop :=
  ∀ (s t : State) (f : Failure), step s = .next t → s.faultLatch = none → t.faultLatch = some f →
    t.pc = s.pc + 1 ∧ t.cond = s.cond ∧ t.running = s.running ∧ t.output = s.output ∧ t.segments = s.segments ∧
    t.params = s.params ∧ t.inputQueue = (s.memRead s.pc).2.inputQueue ∧ (s.memRead s.pc).2.SameMemory t ∧
    s.SameRegsBut t .r7 ∧
    match f with
    | .illegalOpcode op addr =>
      op = (s.memRead s.pc).1.extractLsb' 12 4 ∧ (op = 8 ∨ op = 13) ∧ addr = s.pc ∧ t.reg .r7 = s.reg .r7
    | .unknownTrap vec addr =>
      (s.memRead s.pc).1.extractLsb' 12 4 = 15#4 ∧ vec = (s.memRead s.pc).1.extractLsb' 0 8 ∧
        (vec.toNat < 0x20 ∨ 0x25 < vec.toNat) ∧ addr = s.pc ∧ t.reg .r7 = s.pc + 1

/-- While the latch is set every step returns the same failure and takes no next state, running or halted: the latch
is tested before the flag. Both are the spec's decision D4. -/
def Obligations.LatchedCoreTakesNoStep : Prop :=
  ∀ (s : State) (f : Failure), condLegal s.cond = true → s.faultLatch = some f →
    step s = .fault (.failed f) ∧ s.hostStep = .returns (.failed f) s

/-! ### The step -/

/-- A step in a ready state runs the instruction decoded from the word read at PC, in the state that read left with PC
incremented modulo 2^16. That the fetch is a read like any other, which polls at KBSR, is the spec's decision D7. -/
def Obligations.StepRunsTheFetchedInstruction : Prop :=
  ∀ s : State, s.Ready →
    step s = exec (decode (s.memRead s.pc).1) { (s.memRead s.pc).2 with pc := s.pc + 1 }

/-- A step that finds the running flag false, with no failure recorded, changes nothing and returns Ok. That the latch
is tested first is the spec's decision D4. -/
def Obligations.HaltedStepIsANoOp : Prop :=
  ∀ s : State, condLegal s.cond = true → s.faultLatch = none → s.running = false →
    step s = .next s ∧ s.hostStep = .returns .ok s

/-- `step` refuses exactly the states whose COND is not 1, 2 or 4, and no instruction is ever refused. Refusing them is
the spec's decision D23. -/
def Obligations.OnlyIllegalCondIsRefused : Prop :=
  (∀ (i : Instr) (s : State) (r : Refusal), exec i s ≠ .refused r) ∧
  ∀ (s : State) (r : Refusal), step s = .refused r ↔ ¬ (s.cond = 1 ∨ s.cond = 2 ∨ s.cond = 4) ∧ r = .illegalCond

/-- A step is held exactly when the core is ready, the word at PC is a TRAP GETC or a TRAP IN and no character is
available; and a held step's fetch polled nothing. Holding is the spec's decision D12. -/
def Obligations.HeldExactlyWithoutACharacter : Prop :=
  ∀ s : State,
    (step s = .fault .held ↔ s.Ready ∧ ¬ s.CharReady ∧
      ∃ spare, decode (s.memRead s.pc).1 = .trap spare 0x20 ∨ decode (s.memRead s.pc).1 = .trap spare 0x23) ∧
    (step s = .fault .held → (s.memRead s.pc).2 = s)

/-- A held step is lifted by the host: in LIVE mode give_input of c, in INJECTED mode write_mem of KBDR and then of a
KBSR with bit 15 set; the next step then completes with that character in R0. Both ways are the spec's decision D12. -/
def Obligations.HeldStepIsLiftedByInput : Prop :=
  ∀ s : State, step s = .fault .held →
    (∀ (c : Byte) (t : State), s.giveInput c = some t → ∃ u, step t = .next u ∧ u.reg .r0 = BitVec.ofNat 16 c.toNat) ∧
    (s.params.inputMode = .injected → ∀ k d : Word, k.getLsbD 15 = true → s.pc ≠ 0xFE00 → s.pc ≠ 0xFE02 →
      ∃ u, step ((s.writeMem 0xFE02 d).writeMem 0xFE00 k) = .next u ∧ u.reg .r0 = d &&& 0x00FF)

/-- A store is seen by the very next fetch, with nothing in between: a step that runs ST with offset 0 leaves the stored
word as the next word fetched (neither address KBSR). That the fetch is such a read is the spec's decision D7. -/
def Obligations.StoreIsSeenByTheNextFetch : Prop :=
  ∀ (s : State) (sr : Reg), s.Ready → s.pc ≠ 0xFE00 → s.pc + 1 ≠ 0xFE00 → decode (s.peek s.pc) = .st sr 0 →
    ∃ t, step s = .next t ∧ t.pc = s.pc + 1 ∧ (t.memRead t.pc).1 = s.reg sr

/-- Execution slides over zero words: n steps over n zero words, none of them KBSR, only move PC on by n, wrapping.
Derived by the spec from its rules on BR and reset. -/
def Obligations.ZeroWordsSlide : Prop :=
  ∀ (n : Nat) (s : State), s.Ready →
    (∀ k, k < n → s.pc + BitVec.ofNat 16 k ≠ 0xFE00 ∧ s.peek (s.pc + BitVec.ofNat 16 k) = 0) →
    Host.Core.run Sys2Proof.core n s = .next { s with pc := s.pc + BitVec.ofNat 16 n }

/-! ### Whole-machine rules -/

/-- COND is written only by ADD, AND, NOT, LD, LDI, LDR and LEA, from the value DR then holds, and by GETC and IN, from
R0's; and only BR reads it, through nzp AND COND: with another COND before it, any other instruction answers the same
but for COND, and one that writes COND answers exactly the same. -/
def Obligations.OnlyListedInstructionsWriteAndReadCond : Prop :=
  (∀ (i : Instr) (s t : State), exec i s = .next t →
    t.cond = match i with
      | .addReg dr _ _ _ | .addImm dr _ _ | .andReg dr _ _ _ | .andImm dr _ _ | .not dr _ _ | .ld dr _ | .ldi dr _
      | .ldr dr _ _ | .lea dr _ => flagFor (t.reg dr)
      | .trap _ vect => if vect = 0x20 ∨ vect = 0x23 then flagFor (t.reg .r0) else s.cond
      | .br _ _ | .st _ _ | .sti _ _ | .str _ _ _ | .jmp _ _ _ | .jsr _ | .jsrr _ _ _ | .rti _ | .reserved _ => s.cond) ∧
  (∀ (nzp : BitVec 3) (off : BitVec 9) (s : State), exec (.br nzp off) s =
    .next { s with pc := if nzp.setWidth 16 &&& s.cond ≠ 0 then s.pc + BitVec.ofInt 16 off.toInt else s.pc }) ∧
  ∀ (i : Instr) (s : State) (c : Word), (∀ nzp off, i ≠ .br nzp off) →
    match exec i s, exec i { s with cond := c } with
    | .next t, .next u =>
      u = { t with cond := u.cond } ∧ (match i with
        | .addReg _ _ _ _ | .addImm _ _ _ | .andReg _ _ _ _ | .andImm _ _ _ | .not _ _ _ | .ld _ _ | .ldi _ _
        | .ldr _ _ _ | .lea _ _ => u.cond = t.cond
        | .trap _ vect => if vect = 0x20 ∨ vect = 0x23 then u.cond = t.cond else u.cond = c
        | .br _ _ | .st _ _ | .sti _ _ | .str _ _ _ | .jmp _ _ _ | .jsr _ | .jsrr _ _ _ | .rti _ | .reserved _ =>
          u.cond = c)
    | .fault f, .fault g => f = g
    | _, _ => False

/-- No instruction writes a general register but its DR, R7 for JSR, JSRR and TRAP, and R0 for GETC and IN. The spec
derives it from its table. -/
def Obligations.OnlyListedRegistersAreWritten : Prop :=
  ∀ (i : Instr) (s t : State) (r : Reg), exec i s = .next t →
    (match i with
      | .addReg dr _ _ _ | .addImm dr _ _ | .andReg dr _ _ _ | .andImm dr _ _ | .not dr _ _ | .ld dr _ | .ldi dr _
      | .ldr dr _ _ | .lea dr _ => r ≠ dr
      | .jsr _ | .jsrr _ _ _ => r ≠ .r7
      | .trap _ vect => r ≠ .r7 ∧ ((vect = 0x20 ∨ vect = 0x23) → r ≠ .r0)
      | .br _ _ | .st _ _ | .sti _ _ | .str _ _ _ | .jmp _ _ _ | .rti _ | .reserved _ => True) →
    t.reg r = s.reg r

/-- Where PC is after each instruction, given the incremented PC before it. For JSRR it is BaseR read after R7 is
written, with JSRR_READS_BASE_FIRST false, the spec's decision D22. -/
def Obligations.PcAfterEachInstruction : Prop :=
  ∀ (i : Instr) (s t : State), exec i s = .next t →
    match i with
    | .br nzp off =>
      t.pc = if nzp.setWidth 16 &&& s.cond ≠ 0 then s.pc + BitVec.ofInt 16 off.toInt else s.pc
    | .jmp _ base _ => t.pc = s.reg base
    | .jsr off => t.pc = s.pc + BitVec.ofInt 16 off.toInt
    | .jsrr _ base _ => s.params.jsrrReadsBaseFirst = false → t.pc = (s.setReg .r7 s.pc).reg base
    | .addReg _ _ _ _ | .addImm _ _ _ | .andReg _ _ _ _ | .andImm _ _ _ | .not _ _ _ | .ld _ _ | .ldi _ _ | .ldr _ _ _
    | .lea _ _ | .st _ _ | .sti _ _ | .str _ _ _ | .trap _ _ | .rti _ | .reserved _ => t.pc = s.pc

/-- Only HALT writes the running flag, to false; only RTI, the reserved opcode and TRAP with a vector outside 0x20 to
0x25 write the fault latch, the spec's decision D4. -/
def Obligations.OnlyListedInstructionsHaltOrFail : Prop :=
  ∀ (i : Instr) (s t : State), exec i s = .next t →
    (t.running = match i with
      | .trap _ vect => if vect = 0x25 then false else s.running
      | _ => s.running) ∧
    (t.faultLatch ≠ s.faultLatch → match i with
      | .rti _ | .reserved _ => True
      | .trap _ vect => vect.toNat < 0x20 ∨ 0x25 < vect.toNat
      | _ => False)

/-- No instruction but ST, STI and STR changes a word of memory other than KBSR and KBDR; and none but these three, and
a read of KBSR or a GETC or IN, changes those two: the words a LIVE poll or an INJECTED character takes. These words are
the spec's decisions D10 to D12. -/
def Obligations.OnlyStoresWriteMemory : Prop :=
  ∀ (i : Instr) (s t : State), exec i s = .next t →
    (∀ sr off, i ≠ .st sr off) → (∀ sr off, i ≠ .sti sr off) → (∀ sr base off, i ≠ .str sr base off) →
    (∀ a : Word, a ≠ 0xFE00 → a ≠ 0xFE02 → t.peek a = s.peek a) ∧
    ((∀ dr off, i ≠ .ld dr off) → (∀ dr off, i ≠ .ldi dr off) → (∀ dr base off, i ≠ .ldr dr base off) →
      (∀ spare vect, i ≠ .trap spare vect) → s.SameMemory t)

/-- A step only appends to the output and only takes from the front of the input queue; it changes neither the
segment record nor the instance's parameters, and never sets a cleared running flag. The sink and the queue are the
spec's decisions D9 and D19; that the parameters stand in the state is the model's choice (log entry 3). -/
def Obligations.StepAppendsOutputAndConsumesInput : Prop :=
  ∀ s t : State, step s = .next t →
    s.output <+: t.output ∧ t.inputQueue <:+ s.inputQueue ∧ t.segments = s.segments ∧ t.params = s.params ∧
    (t.running = true → s.running = true)

/-- Nothing reads the output sink back: whatever it holds, a step answers the same outcome, appends the same bytes and
leaves the rest of the state the same. That the sink is append-only is the spec's decision D19. -/
def Obligations.OutputIsNeverReadBack : Prop :=
  ∀ (s : State) (o : List Byte),
    match step s, step { s with output := o } with
    | .next t, .next u => ∃ d, t.output = s.output ++ d ∧ u = { t with output := o ++ d }
    | .fault f, .fault g => f = g
    | .refused p, .refused q => p = q
    | _, _ => False

/-- Every step keeps the invariant: memory in canonical form (the model's choice, log entry 1), COND exactly one of 1, 2 and
4, and the latch legal (what it records, and PC and R7 beside it, are the spec's decisions D4 to D6). -/
def Obligations.StepKeepsTheInvariant : Prop := ∀ s t : State, s.Inv → step s = .next t → t.Inv

/-! ### Reset -/

/-- The invariant holds at reset. That memory is in canonical form is the model's choice (log entry 1). -/
def Obligations.ResetHasTheInvariant : Prop := State.reset.Inv

/-- After reset every general register is zero, PC is 0x3000 and COND is ZRO. -/
def Obligations.ResetRegisters : Prop :=
  (∀ r : Reg, State.reset.reg r = 0) ∧ State.reset.pc = 0x3000 ∧ State.reset.cond = 2

/-- After reset every memory word is zero, KBSR and KBDR included (the spec's reading D31), the running flag is true
(its decision D2), the latch is clear, the output and the segment record are empty; and the first step fetches from
0x3000. -/
def Obligations.ResetRest : Prop :=
  (∀ a : Word, State.reset.peek a = 0) ∧ State.reset.running = true ∧ State.reset.faultLatch = none ∧
  State.reset.output = [] ∧ State.reset.segments = [] ∧
  step State.reset = exec (decode (State.reset.peek 0x3000)) { State.reset with pc := 0x3001 }

/-! ### Host transactions -/

/-- A load that fits stores data word k, most significant byte first, at origin + k and nowhere else, appends
(origin, count) to the segment record, and changes no register, COND, PC, flag, latch, output or queue. A trailing odd
byte is ignored (the spec's decision D24). -/
def Obligations.ImageLoadStoresItsWords : Prop :=
  ∀ (s : State) (hi lo : Byte) (rest : List Byte),
    (hi.toNat * 256 + lo.toNat) + rest.length / 2 ≤ 65536 →
    ∃ t, s.loadImage (some (hi :: lo :: rest)) = .ok t ∧
      (∀ a : Word, t.peek a =
        if hi.toNat * 256 + lo.toNat ≤ a.toNat ∧ a.toNat < hi.toNat * 256 + lo.toNat + rest.length / 2 then
          BitVec.ofNat 16 ((rest.getD (2 * (a.toNat - (hi.toNat * 256 + lo.toNat))) 0).toNat * 256 +
            (rest.getD (2 * (a.toNat - (hi.toNat * 256 + lo.toNat)) + 1) 0).toNat)
        else s.peek a) ∧
      t.segments = s.segments ++ [(BitVec.ofNat 16 (hi.toNat * 256 + lo.toNat), rest.length / 2)] ∧
      t.regs = s.regs ∧ t.pc = s.pc ∧ t.cond = s.cond ∧ t.running = s.running ∧ t.faultLatch = s.faultLatch ∧
      t.output = s.output ∧ t.inputQueue = s.inputQueue ∧ t.params = s.params

/-- A load fails when the file cannot be opened, when the origin cannot be read, and when the data would overflow the
65536-word address space; it then answers the error and no state, so nothing was stored: the spec's decision D24. -/
def Obligations.ImageLoadFails : Prop :=
  ∀ s : State,
    s.loadImage none = .error .cannotOpen ∧
    (∀ bs : List Byte, bs.length < 2 → s.loadImage (some bs) = .error .originMissing) ∧
    ∀ (hi lo : Byte) (rest : List Byte), 65536 < (hi.toNat * 256 + lo.toNat) + rest.length / 2 →
      s.loadImage (some (hi :: lo :: rest)) = .error .tooLarge

/-- request_halt clears the running flag and changes nothing else; the next step is then a no-op, or the same failure
where one is recorded: the spec's decisions D25 and D4. -/
def Obligations.HaltRequestStopsTheCore : Prop :=
  ∀ s : State, s.requestHalt = { s with running := false } ∧
    (condLegal s.cond = true → s.faultLatch = none → step s.requestHalt = .next s.requestHalt) ∧
    ∀ f, condLegal s.cond = true → s.faultLatch = some f → step s.requestHalt = .fault (.failed f)

/-- What run returns says what state it left: Ok, a run that ended well (halted, no failure); Failed, that failure in the
latch; Held, a ready state whose step is held; and a run cut off after n steps left a state that is still running with no
failure. A run is Diverged where the first k of its steps lead to a ready state whose step is Diverged, and then it never
returns, however long it is watched; a step transaction is Diverged exactly where the step is, and then so is whatever the
host would send after it. The cut is the model's (log entry 18), and so is the answer with no state for Diverged (log entry
20); the returns are the spec's decisions D3, D4, D12 and D18. -/
def Obligations.RunReturnsWhatItLeft : Prop :=
  (∀ s : State, (s.hostStep = .diverged ↔ step s = .fault .diverged) ∧
    (step s = .fault .diverged → ∀ f : State → Answer StepReturn, s.hostStep.andThen f = .diverged)) ∧
  ∀ (n : Nat) (s : State),
    match s.runFor n with
    | .returns .ok t => t.endedWell
    | .returns (.failed f) t => t.faultLatch = some f
    | .returns .held t => t.Ready ∧ step t = .fault .held
    | .returns (.refused p) t => step t = .refused p
    | .returns .running t => t.running = true ∧ t.faultLatch = none
    | .diverged =>
      (∃ (k : Nat) (t : State), k < n ∧ Host.Core.run Sys2Proof.core k s = .next t ∧ t.Ready ∧ step t = .fault .diverged) ∧
        ∀ m, n ≤ m → s.runFor m = .diverged
end

