-- ==== Sys2Proof/Laws/Codec.lean ====
section
/-! SUPPORT. The small inverses the decoder and the encoder are built from. -/

namespace Sys2Proof

@[simp] theorem regOfBits_bitsOfReg (r : Reg) : regOfBits (bitsOfReg r) = r := by cases r <;> rfl

@[simp] theorem bitsOfReg_regOfBits (b : BitVec 3) : bitsOfReg (regOfBits b) = b := by
  revert b
  decide

@[simp] theorem opcodeOfBits_bitsOfOpcode (o : Opcode) : opcodeOfBits (bitsOfOpcode o) = o := by cases o <;> rfl

@[simp] theorem bitsOfOpcode_opcodeOfBits (b : BitVec 4) : bitsOfOpcode (opcodeOfBits b) = b := by
  revert b
  decide

end Sys2Proof
end

