-- ==== Sys2Proof/Laws/HostPort.lean ====
section
/-! SUPPORT. The host's transactions: what follows one, and what each outcome of a step makes of a step transaction and
of a watched run. -/

namespace Sys2Proof.Machine

@[simp] theorem Answer.andThen_returns {ρ σ : Type} (r : ρ) (t : State) (f : State → Answer σ) :
    (Answer.returns r t).andThen f = f t := rfl

@[simp] theorem Answer.andThen_diverged {ρ σ : Type} (f : State → Answer σ) :
    (Answer.diverged : Answer ρ).andThen f = .diverged := rfl

/-- A step transaction on a step that completes returns Ok or Failed with the state it left. -/
theorem State.hostStep_of_next {s t : State} (h : step s = .next t) :
    s.hostStep = .returns (match t.faultLatch with | some record => .failed record | none => .ok) t := by
  simp only [State.hostStep, h]
  cases t.faultLatch <;> rfl

/-- A step transaction on a Diverged step leaves no state. -/
theorem State.hostStep_of_diverged {s : State} (h : step s = .fault .diverged) : s.hostStep = .diverged := by
  simp only [State.hostStep, h]

/-- A watched run of a core with a failure recorded returns it at once. -/
theorem State.runFor_of_latch {s : State} {f : Failure} (n : Nat) (h : s.faultLatch = some f) :
    s.runFor n = .returns (.failed f) s := by
  cases n <;> simp [State.runFor, h]

/-- A watched run of a halted core returns Ok at once. -/
theorem State.runFor_of_halted {s : State} (n : Nat) (h : s.faultLatch = none) (hr : s.running = false) :
    s.runFor n = .returns .ok s := by
  cases n <;> simp [State.runFor, h, hr]

/-- A watched run goes on from the state a completed step left. -/
theorem State.runFor_succ_of_next {s t : State} (n : Nat) (h : s.faultLatch = none) (hr : s.running = true)
    (hs : step s = .next t) : s.runFor (n + 1) = t.runFor n := by
  simp [State.runFor, h, hr, hs]

/-- A watched run whose next step is Diverged never returns. -/
theorem State.runFor_succ_of_diverged {s : State} (n : Nat) (h : s.faultLatch = none) (hr : s.running = true)
    (hs : step s = .fault .diverged) : s.runFor (n + 1) = .diverged := by
  simp [State.runFor, h, hr, hs]

end Sys2Proof.Machine
end

