-- ==== Sys2Proof/Laws/Memory.lean ====
section
/-! SUPPORT. Read after write on the word memory, and that a store keeps the canonical form. -/

namespace Sys2Proof.Machine

@[simp] theorem Memory.lookup_nil (a : Nat) : Memory.lookup [] a = 0 := rfl

theorem Memory.lookup_drop_same (m : Memory) (a : Nat) : (m.drop a).lookup a = Memory.blank := by
  induction m with
  | nil => rfl
  | cons c rest ih =>
    by_cases h : c.1 = a <;> simp [Memory.drop, Memory.lookup, h, ih]

theorem Memory.lookup_drop_ne (m : Memory) {a b : Nat} (hab : b ≠ a) : (m.drop a).lookup b = m.lookup b := by
  induction m with
  | nil => rfl
  | cons c rest ih =>
    by_cases h : c.1 = a
    · simp [Memory.drop, Memory.lookup, h, ih, Ne.symm hab]
    · simp [Memory.drop, Memory.lookup, h, ih]

theorem Memory.lookup_place_same (m : Memory) (a : Nat) (v : Word) : ((m.drop a).place a v).lookup a = v := by
  induction m with
  | nil => simp [Memory.drop, Memory.place, Memory.lookup]
  | cons c rest ih =>
    by_cases h : c.1 = a
    · simpa [Memory.drop, h] using ih
    · by_cases hlt : a < c.1 <;> simp [Memory.drop, Memory.place, Memory.lookup, h, hlt, ih]

theorem Memory.lookup_place_ne (m : Memory) {a b : Nat} (v : Word) (hab : b ≠ a) :
    (m.place a v).lookup b = m.lookup b := by
  induction m with
  | nil => simp [Memory.place, Memory.lookup, Ne.symm hab, Memory.blank]
  | cons c rest ih =>
    by_cases hlt : a < c.1
    · simp [Memory.place, Memory.lookup, hlt, Ne.symm hab]
    · simp [Memory.place, Memory.lookup, hlt, ih]

/-- Read after write: the stored word at the stored address, every other address as before. No hypothesis on `m`. -/
theorem Memory.lookup_store (m : Memory) (a b : Nat) (v : Word) :
    (m.store a v).lookup b = if b = a then v else m.lookup b := by
  unfold Memory.store
  by_cases hab : b = a
  · subst hab
    by_cases hv : v = Memory.blank
    · simp [hv, Memory.lookup_drop_same]
    · simp [hv, Memory.lookup_place_same]
  · by_cases hv : v = Memory.blank
    · simp [hv, hab, Memory.lookup_drop_ne]
    · simp [hv, hab, Memory.lookup_place_ne, Memory.lookup_drop_ne]

theorem Memory.mem_of_mem_drop {m : Memory} {a : Nat} {c : Nat × Word} (h : c ∈ m.drop a) : c ∈ m ∧ c.1 ≠ a := by
  induction m with
  | nil => simp [Memory.drop] at h
  | cons d rest ih =>
    by_cases hd : d.1 = a
    · simp only [Memory.drop, hd, if_true] at h
      exact ⟨List.mem_cons_of_mem _ (ih h).1, (ih h).2⟩
    · simp only [Memory.drop, hd, if_false, List.mem_cons] at h
      rcases h with rfl | h
      · exact ⟨List.mem_cons_self, hd⟩
      · exact ⟨List.mem_cons_of_mem _ (ih h).1, (ih h).2⟩

theorem Memory.mem_place {m : Memory} {a : Nat} {v : Word} {c : Nat × Word} (h : c ∈ m.place a v) :
    c = (a, v) ∨ c ∈ m := by
  induction m with
  | nil => simpa [Memory.place] using h
  | cons d rest ih =>
    by_cases hlt : a < d.1
    · simpa [Memory.place, hlt] using h
    · simp only [Memory.place, hlt, if_false, List.mem_cons] at h
      rcases h with rfl | h
      · exact .inr List.mem_cons_self
      · exact (ih h).imp_right (List.mem_cons_of_mem _)

theorem Memory.drop_rising {m : Memory} {a : Nat} (h : m.Pairwise (fun x y => x.1 < y.1)) :
    (m.drop a).Pairwise (fun x y => x.1 < y.1) := by
  induction m with
  | nil => exact h
  | cons d rest ih =>
    obtain ⟨hd, hrest⟩ := List.pairwise_cons.1 h
    by_cases hda : d.1 = a
    · simpa [Memory.drop, hda] using ih hrest
    · simp only [Memory.drop, hda, if_false]
      exact List.pairwise_cons.2 ⟨fun c hc => hd c (Memory.mem_of_mem_drop hc).1, ih hrest⟩

theorem Memory.place_rising {m : Memory} {a : Nat} {v : Word} (h : m.Pairwise (fun x y => x.1 < y.1))
    (ha : ∀ c ∈ m, c.1 ≠ a) : (m.place a v).Pairwise (fun x y => x.1 < y.1) := by
  induction m with
  | nil => simp [Memory.place]
  | cons d rest ih =>
    obtain ⟨hd, hrest⟩ := List.pairwise_cons.1 h
    by_cases hlt : a < d.1
    · simp only [Memory.place, hlt, if_true]
      refine List.pairwise_cons.2 ⟨fun c hc => ?_, h⟩
      rcases List.mem_cons.1 hc with rfl | hc
      · exact hlt
      · exact lt_trans hlt (hd c hc)
    · simp only [Memory.place, hlt, if_false]
      refine List.pairwise_cons.2 ⟨fun c hc => ?_, ih hrest fun c hc => ha c (List.mem_cons_of_mem _ hc)⟩
      rcases Memory.mem_place hc with rfl | hc
      · have : d.1 ≠ a := ha d List.mem_cons_self
        omega
      · exact hd c hc

/-- A store at an address of the address space keeps the canonical form. -/
theorem Memory.store_wf {m : Memory} {a : Nat} {v : Word} (h : m.wf) (ha : a < 65536) : (m.store a v).wf := by
  obtain ⟨hr, hc⟩ := h
  unfold Memory.store
  by_cases hv : v = Memory.blank
  · simp only [hv, if_true]
    exact ⟨Memory.drop_rising hr, fun c hm => hc c (Memory.mem_of_mem_drop hm).1⟩
  · simp only [hv, if_false]
    refine ⟨Memory.place_rising (Memory.drop_rising hr) fun c hm => (Memory.mem_of_mem_drop hm).2, fun c hm => ?_⟩
    rcases Memory.mem_place hm with rfl | hm
    · exact ⟨ha, hv⟩
    · exact hc c (Memory.mem_of_mem_drop hm).1

/-- Read after write, through the machine's own read and write. -/
@[simp] theorem State.peek_memWrite (s : State) (a b v : Word) :
    (s.memWrite a v).peek b = if b = a then v else s.peek b := by
  have h : (b.toNat = a.toNat) = (b = a) := propext ⟨BitVec.eq_of_toNat_eq, congrArg _⟩
  simp [State.peek, State.memWrite, Memory.lookup_store, h]

theorem State.memWrite_wf {s : State} (h : s.mem.wf) (a v : Word) : (s.memWrite a v).mem.wf :=
  Memory.store_wf h a.isLt

theorem State.poll_wf {s : State} (h : s.mem.wf) : s.poll.mem.wf := by
  unfold State.poll
  split
  · exact h
  · split
    · exact State.memWrite_wf h _ _
    · exact State.memWrite_wf (State.memWrite_wf (s := { s with inputQueue := _ }) h _ _) _ _

theorem State.memRead_wf {s : State} (h : s.mem.wf) (a : Word) : (s.memRead a).2.mem.wf := by
  by_cases ha : a = kbsr
  · simpa [State.memRead, ha] using State.poll_wf h
  · simpa [State.memRead, ha] using h

theorem State.inGet_wf {s t : State} {c : Byte} (h : s.mem.wf) (ht : s.inGet = some (c, t)) : t.mem.wf := by
  unfold State.inGet at ht
  split at ht
  · split at ht
    · cases ht
    · cases ht; exact h
  · split at ht
    · cases ht; exact State.memWrite_wf h _ _
    · cases ht

end Sys2Proof.Machine
end

