-- ==== Sys2Proof/Laws/State.lean ====
section
/-! SUPPORT. One lemma per field per update of State, true by rfl, so that no later proof unfolds a record update. -/

namespace Sys2Proof.Machine

/-! ### setReg -/

@[simp] theorem State.setReg_pc (s : State) (r : Reg) (v : Word) : (s.setReg r v).pc = s.pc := rfl
@[simp] theorem State.setReg_cond (s : State) (r : Reg) (v : Word) : (s.setReg r v).cond = s.cond := rfl
@[simp] theorem State.setReg_mem (s : State) (r : Reg) (v : Word) : (s.setReg r v).mem = s.mem := rfl
@[simp] theorem State.setReg_running (s : State) (r : Reg) (v : Word) : (s.setReg r v).running = s.running := rfl
@[simp] theorem State.setReg_faultLatch (s : State) (r : Reg) (v : Word) : (s.setReg r v).faultLatch = s.faultLatch := rfl
@[simp] theorem State.setReg_output (s : State) (r : Reg) (v : Word) : (s.setReg r v).output = s.output := rfl
@[simp] theorem State.setReg_inputQueue (s : State) (r : Reg) (v : Word) : (s.setReg r v).inputQueue = s.inputQueue := rfl
@[simp] theorem State.setReg_segments (s : State) (r : Reg) (v : Word) : (s.setReg r v).segments = s.segments := rfl
@[simp] theorem State.setReg_params (s : State) (r : Reg) (v : Word) : (s.setReg r v).params = s.params := rfl

/-! ### setPc -/

@[simp] theorem State.setPc_regs (s : State) (v : Word) : (s.setPc v).regs = s.regs := rfl
@[simp] theorem State.setPc_cond (s : State) (v : Word) : (s.setPc v).cond = s.cond := rfl
@[simp] theorem State.setPc_mem (s : State) (v : Word) : (s.setPc v).mem = s.mem := rfl
@[simp] theorem State.setPc_running (s : State) (v : Word) : (s.setPc v).running = s.running := rfl
@[simp] theorem State.setPc_faultLatch (s : State) (v : Word) : (s.setPc v).faultLatch = s.faultLatch := rfl
@[simp] theorem State.setPc_output (s : State) (v : Word) : (s.setPc v).output = s.output := rfl
@[simp] theorem State.setPc_inputQueue (s : State) (v : Word) : (s.setPc v).inputQueue = s.inputQueue := rfl
@[simp] theorem State.setPc_segments (s : State) (v : Word) : (s.setPc v).segments = s.segments := rfl
@[simp] theorem State.setPc_params (s : State) (v : Word) : (s.setPc v).params = s.params := rfl

/-! ### link -/

@[simp] theorem State.link_pc (s : State) : s.link.pc = s.pc := rfl
@[simp] theorem State.link_cond (s : State) : s.link.cond = s.cond := rfl
@[simp] theorem State.link_mem (s : State) : s.link.mem = s.mem := rfl
@[simp] theorem State.link_running (s : State) : s.link.running = s.running := rfl
@[simp] theorem State.link_faultLatch (s : State) : s.link.faultLatch = s.faultLatch := rfl
@[simp] theorem State.link_output (s : State) : s.link.output = s.output := rfl
@[simp] theorem State.link_inputQueue (s : State) : s.link.inputQueue = s.inputQueue := rfl
@[simp] theorem State.link_segments (s : State) : s.link.segments = s.segments := rfl
@[simp] theorem State.link_params (s : State) : s.link.params = s.params := rfl

/-! ### setcc -/

@[simp] theorem State.setcc_regs (s : State) (v : Word) : (s.setcc v).regs = s.regs := rfl
@[simp] theorem State.setcc_pc (s : State) (v : Word) : (s.setcc v).pc = s.pc := rfl
@[simp] theorem State.setcc_mem (s : State) (v : Word) : (s.setcc v).mem = s.mem := rfl
@[simp] theorem State.setcc_running (s : State) (v : Word) : (s.setcc v).running = s.running := rfl
@[simp] theorem State.setcc_faultLatch (s : State) (v : Word) : (s.setcc v).faultLatch = s.faultLatch := rfl
@[simp] theorem State.setcc_output (s : State) (v : Word) : (s.setcc v).output = s.output := rfl
@[simp] theorem State.setcc_inputQueue (s : State) (v : Word) : (s.setcc v).inputQueue = s.inputQueue := rfl
@[simp] theorem State.setcc_segments (s : State) (v : Word) : (s.setcc v).segments = s.segments := rfl
@[simp] theorem State.setcc_params (s : State) (v : Word) : (s.setcc v).params = s.params := rfl

/-! ### writeResult -/

@[simp] theorem State.writeResult_pc (s : State) (r : Reg) (v : Word) : (s.writeResult r v).pc = s.pc := rfl
@[simp] theorem State.writeResult_mem (s : State) (r : Reg) (v : Word) : (s.writeResult r v).mem = s.mem := rfl
@[simp] theorem State.writeResult_running (s : State) (r : Reg) (v : Word) : (s.writeResult r v).running = s.running := rfl
@[simp] theorem State.writeResult_faultLatch (s : State) (r : Reg) (v : Word) : (s.writeResult r v).faultLatch = s.faultLatch := rfl
@[simp] theorem State.writeResult_output (s : State) (r : Reg) (v : Word) : (s.writeResult r v).output = s.output := rfl
@[simp] theorem State.writeResult_inputQueue (s : State) (r : Reg) (v : Word) : (s.writeResult r v).inputQueue = s.inputQueue := rfl
@[simp] theorem State.writeResult_segments (s : State) (r : Reg) (v : Word) : (s.writeResult r v).segments = s.segments := rfl
@[simp] theorem State.writeResult_params (s : State) (r : Reg) (v : Word) : (s.writeResult r v).params = s.params := rfl

/-! ### memWrite -/

@[simp] theorem State.memWrite_regs (s : State) (a v : Word) : (s.memWrite a v).regs = s.regs := rfl
@[simp] theorem State.memWrite_pc (s : State) (a v : Word) : (s.memWrite a v).pc = s.pc := rfl
@[simp] theorem State.memWrite_cond (s : State) (a v : Word) : (s.memWrite a v).cond = s.cond := rfl
@[simp] theorem State.memWrite_running (s : State) (a v : Word) : (s.memWrite a v).running = s.running := rfl
@[simp] theorem State.memWrite_faultLatch (s : State) (a v : Word) : (s.memWrite a v).faultLatch = s.faultLatch := rfl
@[simp] theorem State.memWrite_output (s : State) (a v : Word) : (s.memWrite a v).output = s.output := rfl
@[simp] theorem State.memWrite_inputQueue (s : State) (a v : Word) : (s.memWrite a v).inputQueue = s.inputQueue := rfl
@[simp] theorem State.memWrite_segments (s : State) (a v : Word) : (s.memWrite a v).segments = s.segments := rfl
@[simp] theorem State.memWrite_params (s : State) (a v : Word) : (s.memWrite a v).params = s.params := rfl

/-! ### out -/

@[simp] theorem State.out_regs (s : State) (bs : List Byte) : (s.out bs).regs = s.regs := rfl
@[simp] theorem State.out_pc (s : State) (bs : List Byte) : (s.out bs).pc = s.pc := rfl
@[simp] theorem State.out_cond (s : State) (bs : List Byte) : (s.out bs).cond = s.cond := rfl
@[simp] theorem State.out_mem (s : State) (bs : List Byte) : (s.out bs).mem = s.mem := rfl
@[simp] theorem State.out_running (s : State) (bs : List Byte) : (s.out bs).running = s.running := rfl
@[simp] theorem State.out_faultLatch (s : State) (bs : List Byte) : (s.out bs).faultLatch = s.faultLatch := rfl
@[simp] theorem State.out_inputQueue (s : State) (bs : List Byte) : (s.out bs).inputQueue = s.inputQueue := rfl
@[simp] theorem State.out_segments (s : State) (bs : List Byte) : (s.out bs).segments = s.segments := rfl
@[simp] theorem State.out_params (s : State) (bs : List Byte) : (s.out bs).params = s.params := rfl

/-! ### halt -/

@[simp] theorem State.halt_regs (s : State) : s.halt.regs = s.regs := rfl
@[simp] theorem State.halt_pc (s : State) : s.halt.pc = s.pc := rfl
@[simp] theorem State.halt_cond (s : State) : s.halt.cond = s.cond := rfl
@[simp] theorem State.halt_mem (s : State) : s.halt.mem = s.mem := rfl
@[simp] theorem State.halt_faultLatch (s : State) : s.halt.faultLatch = s.faultLatch := rfl
@[simp] theorem State.halt_output (s : State) : s.halt.output = s.output := rfl
@[simp] theorem State.halt_inputQueue (s : State) : s.halt.inputQueue = s.inputQueue := rfl
@[simp] theorem State.halt_segments (s : State) : s.halt.segments = s.segments := rfl
@[simp] theorem State.halt_params (s : State) : s.halt.params = s.params := rfl

/-! ### The fields an update writes -/

@[simp] theorem State.setPc_pc (s : State) (v : Word) : (s.setPc v).pc = v := rfl
@[simp] theorem State.setcc_cond (s : State) (v : Word) : (s.setcc v).cond = condOf v := rfl
@[simp] theorem State.writeResult_cond (s : State) (r : Reg) (v : Word) : (s.writeResult r v).cond = condOf v := rfl
@[simp] theorem State.out_output (s : State) (bs : List Byte) : (s.out bs).output = s.output ++ bs := rfl
@[simp] theorem State.halt_running (s : State) : s.halt.running = false := rfl

/-! ### Registers: read after write -/

@[simp] theorem Regs.get_set (g : Regs) (r q : Reg) (v : Word) : (g.set r v).get q = if q = r then v else g.get q := by
  cases r <;> cases q <;> rfl

@[simp] theorem State.reg_setReg (s : State) (r q : Reg) (v : Word) :
    (s.setReg r v).reg q = if q = r then v else s.reg q := Regs.get_set s.regs r q v

@[simp] theorem State.reg_writeResult (s : State) (r q : Reg) (v : Word) :
    (s.writeResult r v).reg q = if q = r then v else s.reg q := Regs.get_set s.regs r q v

@[simp] theorem State.reg_link (s : State) (q : Reg) : s.link.reg q = if q = .r7 then s.pc else s.reg q :=
  Regs.get_set s.regs .r7 q s.pc

@[simp] theorem State.reg_setPc (s : State) (v : Word) (q : Reg) : (s.setPc v).reg q = s.reg q := rfl
@[simp] theorem State.reg_setcc (s : State) (v : Word) (q : Reg) : (s.setcc v).reg q = s.reg q := rfl
@[simp] theorem State.reg_memWrite (s : State) (a v : Word) (q : Reg) : (s.memWrite a v).reg q = s.reg q := rfl
@[simp] theorem State.reg_out (s : State) (bs : List Byte) (q : Reg) : (s.out bs).reg q = s.reg q := rfl
@[simp] theorem State.reg_halt (s : State) (q : Reg) : s.halt.reg q = s.reg q := rfl

/-! ### Memory words: only a store changes one -/

@[simp] theorem State.peek_setReg (s : State) (r : Reg) (v a : Word) : (s.setReg r v).peek a = s.peek a := rfl
@[simp] theorem State.peek_setPc (s : State) (v a : Word) : (s.setPc v).peek a = s.peek a := rfl
@[simp] theorem State.peek_link (s : State) (a : Word) : s.link.peek a = s.peek a := rfl
@[simp] theorem State.peek_setcc (s : State) (v a : Word) : (s.setcc v).peek a = s.peek a := rfl
@[simp] theorem State.peek_writeResult (s : State) (r : Reg) (v a : Word) :
    (s.writeResult r v).peek a = s.peek a := rfl
@[simp] theorem State.peek_out (s : State) (bs : List Byte) (a : Word) : (s.out bs).peek a = s.peek a := rfl
@[simp] theorem State.peek_halt (s : State) (a : Word) : s.halt.peek a = s.peek a := rfl

end Sys2Proof.Machine
end

