-- ==== Sys2Proof/Laws/Ops.lean ====
section
/-! SUPPORT. For each shared operation, one lemma that says everything it can do. -/

namespace Sys2Proof.Machine

/-- All a poll can do: nothing in INJECTED mode; in LIVE mode, KBSR cleared, or one byte moved to KBDR. -/
theorem State.poll_cases (s : State) :
    (s.params.inputMode = .injected ∧ s.poll = s) ∨
    (s.params.inputMode = .live ∧ s.inputQueue = [] ∧ s.poll = s.memWrite kbsr 0) ∨
    (∃ c rest, s.params.inputMode = .live ∧ s.inputQueue = c :: rest ∧
      s.poll = ({ s with inputQueue := rest }.memWrite kbdr (charWord c)).memWrite kbsr 0x8000) := by
  cases hm : s.params.inputMode with
  | injected => exact .inl ⟨rfl, by simp [State.poll, hm]⟩
  | live =>
    cases hq : s.inputQueue with
    | nil => exact .inr (.inl ⟨rfl, rfl, by simp [State.poll, hm, hq]⟩)
    | cons c rest => exact .inr (.inr ⟨c, rest, rfl, rfl, by simp [State.poll, hm, hq]⟩)

@[simp] theorem State.poll_regs (s : State) : s.poll.regs = s.regs := by
  obtain ⟨_, h⟩ | ⟨_, _, h⟩ | ⟨_, _, _, _, h⟩ := s.poll_cases <;> rw [h] <;> rfl

@[simp] theorem State.poll_pc (s : State) : s.poll.pc = s.pc := by
  obtain ⟨_, h⟩ | ⟨_, _, h⟩ | ⟨_, _, _, _, h⟩ := s.poll_cases <;> rw [h] <;> rfl

@[simp] theorem State.poll_cond (s : State) : s.poll.cond = s.cond := by
  obtain ⟨_, h⟩ | ⟨_, _, h⟩ | ⟨_, _, _, _, h⟩ := s.poll_cases <;> rw [h] <;> rfl

@[simp] theorem State.poll_running (s : State) : s.poll.running = s.running := by
  obtain ⟨_, h⟩ | ⟨_, _, h⟩ | ⟨_, _, _, _, h⟩ := s.poll_cases <;> rw [h] <;> rfl

@[simp] theorem State.poll_faultLatch (s : State) : s.poll.faultLatch = s.faultLatch := by
  obtain ⟨_, h⟩ | ⟨_, _, h⟩ | ⟨_, _, _, _, h⟩ := s.poll_cases <;> rw [h] <;> rfl

@[simp] theorem State.poll_output (s : State) : s.poll.output = s.output := by
  obtain ⟨_, h⟩ | ⟨_, _, h⟩ | ⟨_, _, _, _, h⟩ := s.poll_cases <;> rw [h] <;> rfl

@[simp] theorem State.poll_segments (s : State) : s.poll.segments = s.segments := by
  obtain ⟨_, h⟩ | ⟨_, _, h⟩ | ⟨_, _, _, _, h⟩ := s.poll_cases <;> rw [h] <;> rfl

@[simp] theorem State.poll_params (s : State) : s.poll.params = s.params := by
  obtain ⟨_, h⟩ | ⟨_, _, h⟩ | ⟨_, _, _, _, h⟩ := s.poll_cases <;> rw [h] <;> rfl

/-- A poll touches no word but KBSR and KBDR (R47). -/
theorem State.peek_poll_of_ne (s : State) {a : Word} (h1 : a ≠ kbsr) (h2 : a ≠ kbdr) : s.poll.peek a = s.peek a := by
  obtain ⟨_, h⟩ | ⟨_, _, h⟩ | ⟨_, _, _, _, h⟩ := s.poll_cases <;> rw [h]
  · simp [h1]
  · simp only [State.peek_memWrite, h1, h2, if_false]
    rfl

/-- A poll only takes from the front of the queue. -/
theorem State.poll_inputQueue_suffix (s : State) : s.poll.inputQueue <:+ s.inputQueue := by
  obtain ⟨_, h⟩ | ⟨_, hq, h⟩ | ⟨c, rest, _, hq, h⟩ := s.poll_cases
  · rw [h]
  · rw [h]
    exact List.suffix_rfl
  · rw [h, hq]
    exact List.suffix_cons c rest

/-- All a read can do: at KBSR it polls; anywhere else it has no side effect (R42). -/
theorem State.memRead_cases (s : State) (a : Word) :
    (a = kbsr ∧ s.memRead a = (s.poll.peek kbsr, s.poll)) ∨ (a ≠ kbsr ∧ s.memRead a = (s.peek a, s)) := by
  by_cases h : a = kbsr
  · exact .inl ⟨h, by simp [State.memRead, h]⟩
  · exact .inr ⟨h, by simp [State.memRead, h]⟩

theorem State.memRead_of_ne (s : State) {a : Word} (h : a ≠ kbsr) : s.memRead a = (s.peek a, s) := by
  simp [State.memRead, h]

theorem State.memRead_kbsr (s : State) : s.memRead kbsr = (s.poll.peek kbsr, s.poll) := by
  simp [State.memRead]

theorem State.memRead_fst (s : State) (a : Word) : (s.memRead a).1 = (s.memRead a).2.peek a := rfl

@[simp] theorem State.memRead_regs (s : State) (a : Word) : (s.memRead a).2.regs = s.regs := by
  obtain ⟨_, h⟩ | ⟨_, h⟩ := s.memRead_cases a <;> simp [h]

@[simp] theorem State.memRead_reg (s : State) (a : Word) (r : Reg) : (s.memRead a).2.reg r = s.reg r := by
  simp [State.reg]

@[simp] theorem State.memRead_pc (s : State) (a : Word) : (s.memRead a).2.pc = s.pc := by
  obtain ⟨_, h⟩ | ⟨_, h⟩ := s.memRead_cases a <;> simp [h]

@[simp] theorem State.memRead_cond (s : State) (a : Word) : (s.memRead a).2.cond = s.cond := by
  obtain ⟨_, h⟩ | ⟨_, h⟩ := s.memRead_cases a <;> simp [h]

@[simp] theorem State.memRead_running (s : State) (a : Word) : (s.memRead a).2.running = s.running := by
  obtain ⟨_, h⟩ | ⟨_, h⟩ := s.memRead_cases a <;> simp [h]

@[simp] theorem State.memRead_faultLatch (s : State) (a : Word) : (s.memRead a).2.faultLatch = s.faultLatch := by
  obtain ⟨_, h⟩ | ⟨_, h⟩ := s.memRead_cases a <;> simp [h]

@[simp] theorem State.memRead_output (s : State) (a : Word) : (s.memRead a).2.output = s.output := by
  obtain ⟨_, h⟩ | ⟨_, h⟩ := s.memRead_cases a <;> simp [h]

@[simp] theorem State.memRead_segments (s : State) (a : Word) : (s.memRead a).2.segments = s.segments := by
  obtain ⟨_, h⟩ | ⟨_, h⟩ := s.memRead_cases a <;> simp [h]

@[simp] theorem State.memRead_params (s : State) (a : Word) : (s.memRead a).2.params = s.params := by
  obtain ⟨_, h⟩ | ⟨_, h⟩ := s.memRead_cases a <;> simp [h]

/-- A read touches no word but KBSR and KBDR (R47). -/
theorem State.peek_memRead_of_ne (s : State) (b : Word) {a : Word} (h1 : a ≠ kbsr) (h2 : a ≠ kbdr) :
    (s.memRead b).2.peek a = s.peek a := by
  obtain ⟨_, h⟩ | ⟨_, h⟩ := s.memRead_cases b <;> simp [h, State.peek_poll_of_ne, h1, h2]

theorem State.memRead_inputQueue_suffix (s : State) (a : Word) : (s.memRead a).2.inputQueue <:+ s.inputQueue := by
  obtain ⟨_, h⟩ | ⟨_, h⟩ := s.memRead_cases a <;> simp [h, s.poll_inputQueue_suffix]

/-- All InGet can do (R142): take the next queued byte in LIVE mode, or KBDR's low byte in INJECTED mode, clearing KBSR. -/
theorem State.inGet_cases {s t : State} {c : Byte} (h : s.inGet = some (c, t)) :
    (s.params.inputMode = .live ∧ ∃ rest, s.inputQueue = c :: rest ∧ t = { s with inputQueue := rest }) ∨
    (s.params.inputMode = .injected ∧ (s.peek kbsr).getLsbD 15 = true ∧ c = (s.peek kbdr).extractLsb' 0 8 ∧
      t = s.memWrite kbsr 0) := by
  unfold State.inGet at h
  split at h
  · next hm =>
    split at h
    · cases h
    · next hq => cases h; exact .inl ⟨hm, _, hq, rfl⟩
  · next hm =>
    split at h
    · next hk => cases h; exact .inr ⟨hm, hk, rfl, rfl⟩
    · cases h

/-- When InGet holds (R142). -/
theorem State.inGet_eq_none_iff (s : State) :
    s.inGet = none ↔ (s.params.inputMode = .live ∧ s.inputQueue = []) ∨
      (s.params.inputMode = .injected ∧ (s.peek kbsr).getLsbD 15 = false) := by
  unfold State.inGet
  cases s.params.inputMode with
  | live => cases s.inputQueue <;> simp
  | injected => cases (s.peek kbsr).getLsbD 15 <;> simp

/-- A scan that ends went through a state invariant that reads and output both keep. -/
theorem scan_keeps {bytes : Word → List Byte} (P : State → Prop)
    (hread : ∀ s a, P s → P (s.memRead a).2) (hout : ∀ s bs, P s → P (s.out bs)) :
    ∀ {fuel : Nat} {a : Word} {s t : State}, P s → scan bytes fuel a s = some t → P t := by
  intro fuel
  induction fuel with
  | zero => intro a s t _ h; simp [scan] at h
  | succ n ih =>
    intro a s t hp h
    simp only [scan] at h
    split at h
    · cases h; exact hread s a hp
    · exact ih (hout _ _ (hread s a hp)) h

/-- All a raise does: the latch is set, nothing else. -/
theorem State.raise_eq_next {s t : State} {f : Failure} (h : s.raise f = .next t) :
    t = { s with faultLatch := some f } := by
  simpa [State.raise, eq_comm] using h

/-- All the fetch does (R76): the word at PC, and PC plus 1 after the read. -/
theorem State.fetch_eq (s : State) : s.fetch = ((s.memRead s.pc).1, (s.memRead s.pc).2.setPc (s.pc + 1)) := rfl

@[simp] theorem State.fetch_pc (s : State) : s.fetch.2.pc = s.pc + 1 := rfl

/-- All a step that answers a next state can do: run the fetched instruction, or nothing while halted. -/
theorem step_next_cases {s t : State} (h : step s = .next t) :
    condLegal s.cond = true ∧ s.faultLatch = none ∧
      ((s.running = true ∧ exec (decode s.fetch.1) s.fetch.2 = .next t) ∨ (s.running = false ∧ t = s)) := by
  unfold step at h
  split at h
  · next hc =>
    split at h
    · cases h
    · next hl =>
      split at h
      · next hr => exact ⟨hc, hl, .inl ⟨hr, h⟩⟩
      · next hr => cases h; exact ⟨hc, hl, .inr ⟨by simpa using hr, rfl⟩⟩
  · cases h

end Sys2Proof.Machine
end

