-- ==== Sys2Proof/Laws/PerInstr.lean ====
section
/-! SUPPORT. Facts about every instruction as syntax, one lemma a constructor. -/

namespace Sys2Proof.Laws.EncodeTable

/-- The "mask" column of spec/opcode_table.json for the instruction's row. -/
def rowMask : Instr → Word
  | .addReg _ _ _ _ | .addImm _ _ _ | .andReg _ _ _ _ | .andImm _ _ _ => 0xF020
  | .jsrr _ _ _ | .jsr _ => 0xF800
  | .br _ _ | .ld _ _ | .st _ _ | .ldr _ _ _ | .str _ _ _ | .rti _ | .not _ _ _ | .ldi _ _ | .sti _ _ | .jmp _ _ _
  | .reserved _ | .lea _ _ | .trap _ _ => 0xF000

/-- The "match" column of spec/opcode_table.json for the instruction's row. -/
def rowMatch : Instr → Word
  | .br _ _ => 0x0000 | .addReg _ _ _ _ => 0x1000 | .addImm _ _ _ => 0x1020 | .ld _ _ => 0x2000 | .st _ _ => 0x3000
  | .jsrr _ _ _ => 0x4000 | .jsr _ => 0x4800 | .andReg _ _ _ _ => 0x5000 | .andImm _ _ _ => 0x5020
  | .ldr _ _ _ => 0x6000 | .str _ _ _ => 0x7000 | .rti _ => 0x8000 | .not _ _ _ => 0x9000 | .ldi _ _ => 0xA000
  | .sti _ _ => 0xB000 | .jmp _ _ _ => 0xC000 | .reserved _ => 0xD000 | .lea _ _ => 0xE000 | .trap _ _ => 0xF000

/-- The instruction's word has its row's fixed bits. -/
def Statement (i : Instr) : Prop := encode i &&& rowMask i = rowMatch i

theorem br (nzp : BitVec 3) (off : BitVec 9) :
    Statement (.br nzp off) := by
  refine BitVec.eq_of_getLsbD_eq fun j hj => ?_
  interval_cases j <;> simp [encode, opcodeAt, bitsAt, rowMask, rowMatch, bitsOfOpcode]

theorem addReg (dr sr1 : Reg) (spare : BitVec 2) (sr2 : Reg) :
    Statement (.addReg dr sr1 spare sr2) := by
  refine BitVec.eq_of_getLsbD_eq fun j hj => ?_
  interval_cases j <;> simp [encode, opcodeAt, regAt, bitsAt, rowMask, rowMatch, bitsOfOpcode]

theorem addImm (dr sr1 : Reg) (imm : BitVec 5) :
    Statement (.addImm dr sr1 imm) := by
  refine BitVec.eq_of_getLsbD_eq fun j hj => ?_
  interval_cases j <;> simp [encode, opcodeAt, regAt, bitsAt, rowMask, rowMatch, bitsOfOpcode]

theorem ld (dr : Reg) (off : BitVec 9) :
    Statement (.ld dr off) := by
  refine BitVec.eq_of_getLsbD_eq fun j hj => ?_
  interval_cases j <;> simp [encode, opcodeAt, regAt, bitsAt, rowMask, rowMatch, bitsOfOpcode]

theorem st (sr : Reg) (off : BitVec 9) :
    Statement (.st sr off) := by
  refine BitVec.eq_of_getLsbD_eq fun j hj => ?_
  interval_cases j <;> simp [encode, opcodeAt, regAt, bitsAt, rowMask, rowMatch, bitsOfOpcode]

theorem jsrr (spareHi : BitVec 2) (base : Reg) (spareLo : BitVec 6) :
    Statement (.jsrr spareHi base spareLo) := by
  refine BitVec.eq_of_getLsbD_eq fun j hj => ?_
  interval_cases j <;> simp [encode, opcodeAt, regAt, bitsAt, rowMask, rowMatch, bitsOfOpcode]

theorem jsr (off : BitVec 11) :
    Statement (.jsr off) := by
  refine BitVec.eq_of_getLsbD_eq fun j hj => ?_
  interval_cases j <;> simp [encode, opcodeAt, bitsAt, rowMask, rowMatch, bitsOfOpcode]

theorem andReg (dr sr1 : Reg) (spare : BitVec 2) (sr2 : Reg) :
    Statement (.andReg dr sr1 spare sr2) := by
  refine BitVec.eq_of_getLsbD_eq fun j hj => ?_
  interval_cases j <;> simp [encode, opcodeAt, regAt, bitsAt, rowMask, rowMatch, bitsOfOpcode]

theorem andImm (dr sr1 : Reg) (imm : BitVec 5) :
    Statement (.andImm dr sr1 imm) := by
  refine BitVec.eq_of_getLsbD_eq fun j hj => ?_
  interval_cases j <;> simp [encode, opcodeAt, regAt, bitsAt, rowMask, rowMatch, bitsOfOpcode]

theorem ldr (dr base : Reg) (off : BitVec 6) :
    Statement (.ldr dr base off) := by
  refine BitVec.eq_of_getLsbD_eq fun j hj => ?_
  interval_cases j <;> simp [encode, opcodeAt, regAt, bitsAt, rowMask, rowMatch, bitsOfOpcode]

theorem str (sr base : Reg) (off : BitVec 6) :
    Statement (.str sr base off) := by
  refine BitVec.eq_of_getLsbD_eq fun j hj => ?_
  interval_cases j <;> simp [encode, opcodeAt, regAt, bitsAt, rowMask, rowMatch, bitsOfOpcode]

theorem rti (spare : BitVec 12) :
    Statement (.rti spare) := by
  refine BitVec.eq_of_getLsbD_eq fun j hj => ?_
  interval_cases j <;> simp [encode, opcodeAt, bitsAt, rowMask, rowMatch, bitsOfOpcode]

theorem not (dr sr : Reg) (spare : BitVec 6) :
    Statement (.not dr sr spare) := by
  refine BitVec.eq_of_getLsbD_eq fun j hj => ?_
  interval_cases j <;> simp [encode, opcodeAt, regAt, bitsAt, rowMask, rowMatch, bitsOfOpcode]

theorem ldi (dr : Reg) (off : BitVec 9) :
    Statement (.ldi dr off) := by
  refine BitVec.eq_of_getLsbD_eq fun j hj => ?_
  interval_cases j <;> simp [encode, opcodeAt, regAt, bitsAt, rowMask, rowMatch, bitsOfOpcode]

theorem sti (sr : Reg) (off : BitVec 9) :
    Statement (.sti sr off) := by
  refine BitVec.eq_of_getLsbD_eq fun j hj => ?_
  interval_cases j <;> simp [encode, opcodeAt, regAt, bitsAt, rowMask, rowMatch, bitsOfOpcode]

theorem jmp (spareHi : BitVec 3) (base : Reg) (spareLo : BitVec 6) :
    Statement (.jmp spareHi base spareLo) := by
  refine BitVec.eq_of_getLsbD_eq fun j hj => ?_
  interval_cases j <;> simp [encode, opcodeAt, regAt, bitsAt, rowMask, rowMatch, bitsOfOpcode]

theorem reserved (spare : BitVec 12) :
    Statement (.reserved spare) := by
  refine BitVec.eq_of_getLsbD_eq fun j hj => ?_
  interval_cases j <;> simp [encode, opcodeAt, bitsAt, rowMask, rowMatch, bitsOfOpcode]

theorem lea (dr : Reg) (off : BitVec 9) :
    Statement (.lea dr off) := by
  refine BitVec.eq_of_getLsbD_eq fun j hj => ?_
  interval_cases j <;> simp [encode, opcodeAt, regAt, bitsAt, rowMask, rowMatch, bitsOfOpcode]

theorem trap (spare : BitVec 4) (vect : BitVec 8) :
    Statement (.trap spare vect) := by
  refine BitVec.eq_of_getLsbD_eq fun j hj => ?_
  interval_cases j <;> simp [encode, opcodeAt, bitsAt, rowMask, rowMatch, bitsOfOpcode]

end Sys2Proof.Laws.EncodeTable
end

