-- ==== Sys2Proof/Laws/Run.lean ====
section
/-! SUPPORT. The host's k-step run, one step at a time. -/

namespace Sys2Proof.Machine

/-- One step of a run that goes on, for any machine. -/
theorem run_succ_of_next (M : Host.Core) {s t : M.State} (n : Nat) (h : M.step s = .next t) :
    M.run (n + 1) s = M.run n t := by
  rw [Host.Core.run, h]

/-- One step of a run that ends in a fault, for any machine. -/
theorem run_succ_of_fault (M : Host.Core) {s : M.State} {f : M.Fault} (n : Nat) (h : M.step s = .fault f) :
    M.run (n + 1) s = .fault f := by
  rw [Host.Core.run, h]

theorem core_run_zero (s : State) : Host.Core.run Sys2Proof.core 0 s = .next s := rfl

theorem core_run_succ_of_next {s t : State} (n : Nat) (h : step s = .next t) :
    Host.Core.run Sys2Proof.core (n + 1) s = Host.Core.run Sys2Proof.core n t :=
  run_succ_of_next Sys2Proof.core n h

theorem core_run_succ_of_fault {s : State} {f : Fault} (n : Nat) (h : step s = .fault f) :
    Host.Core.run Sys2Proof.core (n + 1) s = .fault f :=
  run_succ_of_fault Sys2Proof.core n h

end Sys2Proof.Machine
end

