-- ==== Sys2Proof/Laws/Scan.lean ====
section
/-! SUPPORT. The string scan of PUTS and PUTSP: what a bounded scan answers, beside the unbounded loop of the spec. -/

namespace Sys2Proof.Machine

variable {bytes : Word → List Byte}

theorem add_ofNat_succ (a : Word) (k : Nat) : a + BitVec.ofNat 16 (k + 1) = a + 1 + BitVec.ofNat 16 k := by
  have h : BitVec.ofNat 16 (k + 1) = 1 + BitVec.ofNat 16 k := by
    apply BitVec.eq_of_toNat_eq
    simp
    omega
  rw [h, BitVec.add_assoc]

/-- A poll in INJECTED mode changes nothing (R46). -/
theorem State.poll_injected {s : State} (h : s.params.inputMode = .injected) : s.poll = s := by
  unfold State.poll
  rw [h]

/-- A read that does not poll, or polls in INJECTED mode, changes nothing. -/
theorem State.memRead_eq_peek {s : State} (a : Word) (h : s.params.inputMode = .injected ∨ a ≠ kbsr) :
    s.memRead a = (s.peek a, s) := by
  obtain ⟨ha, e⟩ | ⟨_, e⟩ := s.memRead_cases a
  · rcases h with h | h
    · rw [e, State.poll_injected h, ha]
    · exact (h ha).elim
  · exact e

/-- More fuel changes no answer a scan has given. -/
theorem scan_mono : ∀ {n : Nat} {a : Word} {s t : State}, scan bytes n a s = some t → ∀ m, n ≤ m → scan bytes m a s = some t
  | 0, _, _, _, h, _, _ => by simp [scan] at h
  | n + 1, a, s, t, h, m, hm => by
    obtain ⟨m, rfl⟩ : ∃ k, m = k + 1 := ⟨m - 1, by omega⟩
    simp only [scan] at h ⊢
    split
    · next h0 => rwa [if_pos h0] at h
    · next h0 => rw [if_neg h0] at h; exact scan_mono h m (by omega)

/-- What a bounded scan answers, the unbounded loop ends in. -/
theorem scanEnds_of_scan : ∀ {n : Nat} {a : Word} {s t : State}, scan bytes n a s = some t → ScanEnds bytes a s t
  | 0, _, _, _, h => by simp [scan] at h
  | n + 1, a, s, t, h => by
    simp only [scan] at h
    split at h
    · next h0 => cases h; exact .stop a s h0
    · next h0 => exact .more a s t h0 (scanEnds_of_scan h)

/-- What the unbounded loop ends in, some bounded scan answers. -/
theorem scan_of_scanEnds {a : Word} {s t : State} (h : ScanEnds bytes a s t) : ∃ n, scan bytes n a s = some t := by
  induction h with
  | stop a s h => exact ⟨1, by simp [scan, h]⟩
  | more a s t h _ ih =>
    obtain ⟨n, ih⟩ := ih
    exact ⟨n + 1, by simp only [scan]; rw [if_neg h]; exact ih⟩

/-- The state after k reads of a scan from address `a` that have all been nonzero. -/
def scanAfter (bytes : Word → List Byte) : Nat → Word → State → State
  | 0, _, s => s
  | k + 1, a, s => scanAfter bytes k (a + 1) ((s.memRead a).2.out (bytes (s.memRead a).1))

theorem scanAfter_succ : ∀ (k : Nat) (a : Word) (s : State), scanAfter bytes (k + 1) a s =
    ((scanAfter bytes k a s).memRead (a + BitVec.ofNat 16 k)).2.out
      (bytes ((scanAfter bytes k a s).memRead (a + BitVec.ofNat 16 k)).1)
  | 0, a, s => by simp [scanAfter]
  | k + 1, a, s => by
    rw [scanAfter, scanAfter_succ k, add_ofNat_succ]
    rfl

theorem scanAfter_params (k : Nat) (a : Word) (s : State) : (scanAfter bytes k a s).params = s.params := by
  induction k with
  | zero => rfl
  | succ k ih => rw [scanAfter_succ]; simp [ih]

/-- A bounded scan does not answer exactly when each of its reads was nonzero. -/
theorem scan_eq_none_iff : ∀ {n : Nat} {a : Word} {s : State}, scan bytes n a s = none ↔
    ∀ k < n, ((scanAfter bytes k a s).memRead (a + BitVec.ofNat 16 k)).1 ≠ 0
  | 0, a, s => by simp [scan]
  | n + 1, a, s => by
    simp only [scan]
    split
    · next h0 =>
      simp only [reduceCtorEq, false_iff, not_forall]
      exact ⟨0, by omega, by simpa [scanAfter] using h0⟩
    · next h0 =>
      rw [scan_eq_none_iff]
      constructor
      · intro h k hk
        cases k with
        | zero => simpa [scanAfter] using h0
        | succ k =>
          rw [add_ofNat_succ]
          exact h k (by omega)
      · intro h k hk
        have := h (k + 1) (by omega)
        rwa [add_ofNat_succ] at this

/-- In INJECTED mode every read of a scan gives the word memory held before it. -/
theorem scanAfter_read_injected (k : Nat) (a : Word) (s : State) (h : s.params.inputMode = .injected) (x : Word) :
    ((scanAfter bytes k a s).memRead x).1 = s.peek x := by
  have hm : ∀ j, (scanAfter bytes j a s).params.inputMode = .injected := fun j => by rw [scanAfter_params, h]
  have hp : ∀ j y, (scanAfter bytes j a s).peek y = s.peek y := by
    intro j
    induction j with
    | zero => intro y; rfl
    | succ j ih =>
      intro y
      rw [scanAfter_succ, State.peek_out, State.memRead_eq_peek _ (.inl (hm j))]
      exact ih y
  rw [State.memRead_eq_peek _ (.inl (hm k))]
  exact hp k x

/-- In LIVE mode no scan reads k + 1 laps of nonzero words, k the length of the queue: each lap takes a queued byte. -/
theorem scan_live_ne_none (s : State) (a : Word) (h : s.params.inputMode = .live) : scan bytes s.scanFuel a s ≠ none := by
  intro hn
  have hno := scan_eq_none_iff.1 hn
  unfold State.scanFuel at hno
  let k0 := (kbsr - a).toNat
  have hk0 : k0 < 65536 := (kbsr - a).isLt
  have haddr : ∀ j, a + BitVec.ofNat 16 (k0 + 65536 * j) = kbsr := by
    intro j
    have : BitVec.ofNat 16 (k0 + 65536 * j) = kbsr - a := by
      apply BitVec.eq_of_toNat_eq
      simp [k0]
    rw [this, BitVec.add_comm, BitVec.sub_add_cancel]
  have hmono : ∀ k m, k ≤ m →
      (scanAfter bytes m a s).inputQueue.length ≤ (scanAfter bytes k a s).inputQueue.length := by
    intro k m hkm
    induction m with
    | zero => simp_all
    | succ m ih =>
      rcases Nat.lt_or_ge k (m + 1) with h1 | h1
      · rw [scanAfter_succ]
        have := (State.memRead_inputQueue_suffix (scanAfter bytes m a s) (a + BitVec.ofNat 16 m)).length_le
        simp only [State.out_inputQueue]
        exact this.trans (ih (by omega))
      · rw [show k = m + 1 by omega]
  have hlap : ∀ j, j ≤ s.inputQueue.length → k0 + 65536 * j < (s.inputQueue.length + 1) * 65536 := by
    intro j hj
    omega
  have hlive : ∀ k, (scanAfter bytes k a s).params.inputMode ≠ .injected := by
    intro k
    rw [scanAfter_params, h]
    simp
  have key : ∀ j, j ≤ s.inputQueue.length →
      (scanAfter bytes (k0 + 65536 * j) a s).inputQueue.length + j ≤ s.inputQueue.length := by
    intro j
    induction j with
    | zero =>
      intro _
      have := hmono 0 (k0 + 65536 * 0) (by omega)
      simpa [scanAfter] using this
    | succ j ih =>
      intro hj
      have ih := ih (by omega)
      have hno' := hno (k0 + 65536 * j) (hlap j (by omega))
      rw [haddr] at hno'
      have hstep : (scanAfter bytes (k0 + 65536 * j + 1) a s).inputQueue.length + 1 ≤
          (scanAfter bytes (k0 + 65536 * j) a s).inputQueue.length := by
        rw [scanAfter_succ, haddr]
        rw [State.memRead_kbsr] at hno' ⊢
        obtain ⟨hm, _⟩ | ⟨_, hq, hpoll⟩ | ⟨c, rest, _, hq, hpoll⟩ :=
          (scanAfter bytes (k0 + 65536 * j) a s).poll_cases
        · exact (hlive _ hm).elim
        · rw [hpoll] at hno'; simp at hno'
        · simp only [State.out_inputQueue]; rw [hpoll, hq]; simp
      have := hmono (k0 + 65536 * j + 1) (k0 + 65536 * (j + 1)) (by omega)
      omega
  have hk := key s.inputQueue.length (le_refl _)
  have hno' := hno (k0 + 65536 * s.inputQueue.length) (hlap _ (le_refl _))
  rw [haddr, State.memRead_kbsr] at hno'
  obtain ⟨hm, _⟩ | ⟨_, hq, hpoll⟩ | ⟨c, rest, _, hq, hpoll⟩ :=
    (scanAfter bytes (k0 + 65536 * s.inputQueue.length) a s).poll_cases
  · exact hlive _ hm
  · rw [hpoll] at hno'; simp at hno'
  · rw [hq] at hk; simp at hk

/-- A scan that has not ended within its fuel ends with no fuel (R152). -/
theorem scan_none_of_scanFuel {s : State} {a : Word} (h : scan bytes s.scanFuel a s = none) (n : Nat) :
    scan bytes n a s = none := by
  cases hm : s.params.inputMode with
  | live => exact (scan_live_ne_none s a hm h).elim
  | injected =>
    rw [scan_eq_none_iff] at h ⊢
    intro k _
    have hlt : k % 65536 < s.scanFuel := by
      unfold State.scanFuel
      have := Nat.mod_lt k (show 0 < 65536 by omega)
      omega
    have hh := h (k % 65536) hlt
    have e : BitVec.ofNat 16 (k % 65536) = BitVec.ofNat 16 k := by
      apply BitVec.eq_of_toNat_eq
      simp
    rw [e, scanAfter_read_injected _ _ _ hm] at hh
    rwa [scanAfter_read_injected _ _ _ hm]

/-- A scan over n nonzero words and then a zero word, none of them polling: it outputs the words' bytes in order. -/
theorem scan_string : ∀ (n fuel : Nat) (a : Word) (s : State), n < fuel → s.peek (a + BitVec.ofNat 16 n) = 0 →
    (∀ k, k < n → s.peek (a + BitVec.ofNat 16 k) ≠ 0) →
    (s.params.inputMode = .injected ∨ ∀ k, k ≤ n → a + BitVec.ofNat 16 k ≠ kbsr) →
    scan bytes fuel a s = some (s.out ((List.range n).flatMap (fun k => bytes (s.peek (a + BitVec.ofNat 16 k)))))
  | n, 0, _, _, hf, _, _, _ => by omega
  | 0, fuel + 1, a, s, _, h0, _, hk => by
    have z : a + BitVec.ofNat 16 0 = a := by simp
    rw [z] at h0
    have hr := s.memRead_eq_peek a (hk.imp id (fun h => by have := h 0 (le_refl _); rwa [z] at this))
    simp only [scan, hr, h0, if_true]
    simp [State.out]
  | n + 1, fuel + 1, a, s, hf, h0, hne, hk => by
    have z : a + BitVec.ofNat 16 0 = a := by simp
    have hr := s.memRead_eq_peek a (hk.imp id (fun h => by have := h 0 (by omega); rwa [z] at this))
    have h1 := hne 0 (by omega)
    rw [z] at h1
    simp only [scan, hr, h1, if_false]
    rw [scan_string n fuel (a + 1) (s.out (bytes (s.peek a))) (by omega) (by rw [← add_ofNat_succ]; exact h0)
      (fun k hk' => by rw [← add_ofNat_succ]; exact hne (k + 1) (by omega))
      (hk.imp id (fun h k hk' => by rw [← add_ofNat_succ]; exact h (k + 1) (by omega)))]
    simp only [State.out, List.range_succ_eq_map, List.flatMap_cons, List.flatMap_map, add_ofNat_succ, z,
      List.append_assoc]
    rfl

end Sys2Proof.Machine
end

