-- ==== Sys2Proof/Tests/Slice0.lean ====
section
/-! SUPPORT. Smoke tests of well-formedness, decode tests on words written out from R62, one-step tests whose expected
values are the rows of 95_test_vectors.md (named by their ids), and witnesses for the hypotheses of the statements. -/

namespace Sys2Proof.Tests
open Sys2Proof.Machine

/-! ### The states tests start from -/

/-- The start state of 95_test_vectors.md: reset, LIVE with an empty queue, empty prompt and notice. -/
def base : State := { State.reset with params := ⟨.live, [], [], false⟩ }

/-- The same in INJECTED mode. -/
def injected : State := { State.reset with params := ⟨.injected, [], [], false⟩ }

/-- A state with registers and memory words set. -/
def given (s : State) (rs : List (Reg × Word)) (ms : List (Word × Word)) : State :=
  ms.foldl (fun t c => t.memWrite c.1 c.2) (rs.foldl (fun t c => t.setReg c.1 c.2) s)

/-- One step of the word `w` fetched from `a`. -/
def stepAt (a w : Word) (s : State) : Result := step ((s.setPc a).memWrite a w)

/-- What a step leaves, seen through `f`. -/
def leaves {α : Type} (r : Result) (f : State → α) : Option α :=
  match r with
  | .next t => some (f t)
  | _ => none

/-- The register `r`, COND and PC. -/
def seen (r : Reg) (t : State) : Word × Word × Word := (t.reg r, t.cond, t.pc)

/-! ### Well-formedness: what the check refuses, and what it takes -/

theorem test_wf_add_spare : (Instr.addReg .r2 .r0 3 .r1).WellFormed = false := by decide
theorem test_wf_and_spare : (Instr.andReg .r2 .r0 1 .r1).WellFormed = false := by decide
theorem test_wf_not_spare : (Instr.not .r1 .r2 0).WellFormed = false := by decide
theorem test_wf_jmp_high : (Instr.jmp 7 .r7 0).WellFormed = false := by decide
theorem test_wf_jmp_low : (Instr.jmp 0 .r7 0x3F).WellFormed = false := by decide
theorem test_wf_jsrr_high : (Instr.jsrr 1 .r3 0).WellFormed = false := by decide
theorem test_wf_jsrr_low : (Instr.jsrr 0 .r3 1).WellFormed = false := by decide
theorem test_wf_trap_spare : (Instr.trap 0xF 0x21).WellFormed = false := by decide
theorem test_wf_rti_spare : (Instr.rti 0xFFF).WellFormed = false := by decide
theorem test_wf_reserved : (Instr.reserved 0).WellFormed = false := by decide
theorem test_wf_taken : [Instr.addReg .r2 .r0 0 .r1, .andReg .r2 .r0 0 .r1, .not .r1 .r2 0x3F, .jmp 0 .r7 0,
    .jsrr 0 .r3 0, .trap 0 0x21, .rti 0, .br 0 0, .lea .r0 0x1FF].all Instr.WellFormed = true := by decide

/-! ### Decoding: a word of every constructor, its fields written out in the order of R62 -/

theorem test_decode_br : decode 0b0000_101_111111101 = .br 5 0x1FD := by decide
theorem test_decode_addReg : decode 0b0001_010_000_0_11_001 = .addReg .r2 .r0 3 .r1 := by decide
theorem test_decode_addImm : decode 0b0001_010_001_1_01010 = .addImm .r2 .r1 10 := by decide
theorem test_decode_ld : decode 0b0010_011_100000000 = .ld .r3 0x100 := by decide
theorem test_decode_st : decode 0b0011_110_000000001 = .st .r6 1 := by decide
theorem test_decode_jsr : decode 0b0100_1_10000000000 = .jsr 0x400 := by decide
theorem test_decode_jsrr : decode 0b0100_0_10_011_000001 = .jsrr 2 .r3 1 := by decide
theorem test_decode_andReg : decode 0b0101_100_101_0_00_110 = .andReg .r4 .r5 0 .r6 := by decide
theorem test_decode_andImm : decode 0b0101_101_000_1_01111 = .andImm .r5 .r0 15 := by decide
theorem test_decode_ldr : decode 0b0110_010_001_011111 = .ldr .r2 .r1 31 := by decide
theorem test_decode_str : decode 0b0111_011_100_100000 = .str .r3 .r4 0x20 := by decide
theorem test_decode_rti : decode 0b1000_111111111111 = .rti 0xFFF := by decide
theorem test_decode_not : decode 0b1001_001_010_111111 = .not .r1 .r2 0x3F := by decide
theorem test_decode_ldi : decode 0b1010_001_000000001 = .ldi .r1 1 := by decide
theorem test_decode_sti : decode 0b1011_010_000000010 = .sti .r2 2 := by decide
theorem test_decode_jmp : decode 0b1100_101_111_000010 = .jmp 5 .r7 2 := by decide
theorem test_decode_reserved : decode 0b1101_000100100011 = .reserved 0x123 := by decide
theorem test_decode_lea : decode 0b1110_001_000000101 = .lea .r1 5 := by decide
theorem test_decode_trap : decode 0b1111_0001_00100101 = .trap 1 0x25 := by decide

/-- R80 and R132: NOT R1,R2 is written 0x92BF and RET is 0xC1C0. -/
theorem test_encode : encode (.not .r1 .r2 0x3F) = 0x92BF ∧ encode (.jmp 0 .r7 0) = 0xC1C0 ∧
    encode (.addImm .r2 .r1 10) = 0x146A := by decide

theorem test_table_word : decodeTableWord 16 0xF025 = some (.trap 0 0x25) ∧ decodeTableWord 32 0x1F025 = none := by
  decide

/-- The word placed for the fetch is the one the first step after reset runs (S5's word, R1 = 0). -/
theorem test_placed_word : leaves (step (State.reset.withFetchWord 16 0x146A)) (seen .r2) = some (10, 1, 0x3001) := by
  decide

/-! ### Operands: the table S1 -/

theorem test_sext : sext 5 0x0010 = 0xFFF0 ∧ sext 5 0x000F = 0x000F ∧ sext 5 0xFFEF = 0x000F ∧ sext 6 0x20 = 0xFFE0 ∧
    sext 9 0x100 = 0xFF00 ∧ sext 11 0x400 = 0xFC00 ∧ sext 11 0x3FF = 0x3FF ∧ sext 1 1 = 0xFFFF ∧
    sext 16 0x8000 = 0x8000 := by decide

/-- S2. -/
theorem test_condOf : condOf 0 = 2 ∧ condOf 1 = 1 ∧ condOf 0x7FFF = 1 ∧ condOf 0x8000 = 4 ∧ condOf 0xFFFF = 4 := by
  decide

/-! ### Operate: O2, O11, O4, O9, O8, O13, O14 -/

theorem test_add_overflow : leaves (stepAt 0x3000 0x1401 (given base [(.r0, 0x7FFF), (.r1, 1)] [])) (seen .r2) =
    some (0x8000, 4, 0x3001) := by decide
theorem test_add_spare : stepAt 0x3000 0x1419 (given base [(.r0, 0x7FFF), (.r1, 1)] []) =
    .next (((given base [(.r0, 0x7FFF), (.r1, 1), (.r2, 0x8000)] [(0x3000, 0x1419)]).setPc 0x3001).setcc 0x8000) := by
  rfl
theorem test_addImm : leaves (stepAt 0x3000 0x1030 (given base [(.r0, 0x10)] [])) (seen .r0) =
    some (0, 2, 0x3001) := by decide
theorem test_and : leaves (stepAt 0x3000 0x5946 (given base [(.r5, 0xF0F0), (.r6, 0x3C3C)] [])) (seen .r4) =
    some (0x3030, 1, 0x3001) := by decide
theorem test_andImm : leaves (stepAt 0x3000 0x52BF (given base [(.r2, 0x8001)] [])) (seen .r1) =
    some (0x8001, 4, 0x3001) := by decide
theorem test_not : leaves (stepAt 0x3000 0x92BF (given base [(.r2, 0x00FF)] [])) (seen .r1) =
    some (0xFF00, 4, 0x3001) := by decide
theorem test_not_spare : leaves (stepAt 0x3000 0x9280 (given base [(.r2, 0xFFFF), (.r1, 7)] [])) (seen .r1) =
    some (0, 2, 0x3001) := by decide

/-! ### Data movement: D2, D3, D5, D6, D7, D9, D10, D12, D13, D14, D15, D16, D18 -/

theorem test_ld_wraps : leaves (stepAt 0xFFFE 0x2003 (given base [] [(2, 0x1234)])) (seen .r0) =
    some (0x1234, 1, 0xFFFF) := by decide
theorem test_ld_polls : leaves (stepAt 0xFDFF 0x2200 { base with inputQueue := [0x41] })
    (fun t => (seen .r1 t, t.peek 0xFE00, t.peek 0xFE02, t.inputQueue)) =
    some ((0x8000, 4, 0xFE00), 0x8000, 0x41, []) := by decide
theorem test_ld_injected : leaves (stepAt 0xFDFF 0x2200 (given injected [] [(0xFE00, 0x8000)]))
    (fun t => (seen .r1 t, t.peek 0xFE00)) = some ((0x8000, 4, 0xFE00), 0x8000) := by decide
theorem test_ldi : leaves (stepAt 0x3000 0xA201 (given base [] [(0x3002, 0x4000), (0x4000, 0x8001)])) (seen .r1) =
    some (0x8001, 4, 0x3001) := by decide
theorem test_ldi_kbsr : leaves (stepAt 0x3000 0xA201 (given base [(.r1, 9)] [(0x3002, 0xFE00), (0xFE00, 5)]))
    (fun t => (seen .r1 t, t.peek 0xFE00)) = some ((0, 2, 0x3001), 0) := by decide
theorem test_ldr_wraps : leaves (stepAt 0x3000 0x647F (given base [] [(0xFFFF, 0xFFFE)])) (seen .r2) =
    some (0xFFFE, 4, 0x3001) := by decide
theorem test_ldr_same : leaves (stepAt 0x3000 0x6020 (given base [(.r0, 0x4020)] [])) (seen .r0) =
    some (0, 2, 0x3001) := by decide
theorem test_lea : leaves (stepAt 0x0000 0xE100 base) (seen .r0) = some (0xFF01, 4, 1) := by decide
theorem test_st_own_word : leaves (stepAt 0x3000 0x31FF (given base [(.r0, 0x1234)] []))
    (fun t => (t.peek 0x3000, t.cond, t.pc)) = some (0x1234, 2, 0x3001) := by decide
theorem test_sti : leaves (stepAt 0x3000 0xB402 (given base [(.r2, 0xABCD)] [(0x3003, 0x5000)]))
    (fun t => (t.peek 0x5000, t.peek 0x3003, t.pc)) = some (0xABCD, 0x5000, 0x3001) := by decide
theorem test_sti_kbdr : leaves (stepAt 0x3000 0xB402 (given base [(.r2, 0x41)] [(0x3003, 0xFE02)]))
    (fun t => (t.peek 0xFE02, t.peek 0xFE00)) = some (0x41, 0) := by decide
theorem test_str_wraps : leaves (stepAt 0x3000 0x771F (given base [(.r4, 0xFFF0), (.r3, 7)] []))
    (fun t => (t.peek 0x000F, t.pc)) = some (7, 0x3001) := by decide
theorem test_str_kbsr : leaves (stepAt 0x3000 0x7280 (given { base with inputQueue := [0x41] }
    [(.r1, 0x8000), (.r2, 0xFE00)] [])) (fun t => (t.peek 0xFE00, t.peek 0xFE02, t.inputQueue)) =
    some (0x8000, 0, [0x41]) := by decide

/-! ### Control: C5, C6, C1, C15, C11, C12, C13, C14 -/

theorem test_br_taken : leaves (stepAt 0x3005 0x05FD base) State.pc = some 0x3003 := by decide
theorem test_br_not_taken : leaves (stepAt 0x3005 0x05FD { base with cond := 1 }) State.pc = some 0x3006 := by decide
theorem test_br_wraps : leaves (stepAt 0xFFFF 0x0201 { base with cond := 1 }) State.pc = some 1 := by decide
theorem test_jmp_spare : leaves (stepAt 0x3000 0xCFFF (given base [(.r7, 0x2000)] [])) (seen .r7) =
    some (0x2000, 2, 0x2000) := by decide
theorem test_jsr : leaves (stepAt 0x3000 0x4C00 base) (seen .r7) = some (0x3001, 2, 0x2C01) := by decide
theorem test_jsrr : leaves (stepAt 0x3000 0x40C0 (given base [(.r3, 0x5000)] [])) (seen .r7) =
    some (0x3001, 2, 0x5000) := by decide
theorem test_jsrr_r7 : leaves (stepAt 0x3000 0x41C0 (given base [(.r7, 0x4000)] [])) (seen .r7) =
    some (0x3001, 2, 0x3001) := by decide
theorem test_jsrr_r7_first : leaves (stepAt 0x3000 0x41C0
    (given { base with params := ⟨.live, [], [], true⟩ } [(.r7, 0x4000)] [])) (seen .r7) =
    some (0x3001, 2, 0x4000) := by decide

/-! ### TRAP: T3, T4, T5, T6, T7, T9, T11, T13, T14, T15, T16, T17, T20 -/

theorem test_getc : leaves (stepAt 0x3000 0xF020 { base with inputQueue := [0xC1] })
    (fun t => (seen .r0 t, t.reg .r7, t.inputQueue, t.output)) = some ((0xC1, 1, 0x3001), 0x3001, [], []) := by decide
theorem test_getc_held : stepAt 0x3000 0xF020 base = .fault .held := by rfl
theorem test_getc_injected : leaves (stepAt 0x3000 0xF020 (given injected [] [(0xFE00, 0x8000), (0xFE02, 0x01FF)]))
    (fun t => (seen .r0 t, t.peek 0xFE00, t.peek 0xFE02)) = some ((0xFF, 1, 0x3001), 0, 0x01FF) := by decide
theorem test_getc_injected_held : stepAt 0x3000 0xF020 (given injected [] [(0xFE00, 0x7FFF)]) = .fault .held := by rfl
theorem test_out : leaves (stepAt 0x3000 0xF021 (given base [(.r0, 0x1241)] []))
    (fun t => (t.output, t.reg .r7, t.cond, t.pc)) = some ([0x41], 0x3001, 2, 0x3001) := by decide
theorem test_puts : leaves (stepAt 0x3000 0xF022 (given base [(.r0, 0x4000)]
    [(0x4000, 0x48), (0x4001, 0x4100), (0x4002, 0x69)])) (fun t => (t.output, t.reg .r0, t.reg .r7)) =
    some ([0x48, 0, 0x69], 0x4000, 0x3001) := by decide
theorem test_puts_kbsr : leaves (stepAt 0x3000 0xF022 (given base [(.r0, 0xFDFF)] [(0xFDFF, 0x41), (0xFE00, 7)]))
    (fun t => (t.output, t.peek 0xFE00)) = some ([0x41], 0) := by decide
theorem test_putsp : leaves (stepAt 0x3000 0xF024 (given base [(.r0, 0xFFFF)]
    [(0xFFFF, 0x6948), (0, 0x21), (1, 0x4100)])) (fun t => (t.output, t.pc)) =
    some ([0x48, 0x69, 0x21, 0, 0x41], 0x3001) := by decide
theorem test_in : leaves (stepAt 0x3000 0xF023 { base with params := ⟨.live, [0x3E, 0x20], [], false⟩, inputQueue := [0x37] })
    (fun t => (t.output, seen .r0 t, t.reg .r7)) = some ([0x3E, 0x20, 0x37], (0x37, 1, 0x3001), 0x3001) := by decide
theorem test_halt : leaves (stepAt 0x3000 0xF025 { base with params := ⟨.live, [], [0x0A, 0x48], false⟩ })
    (fun t => (t.output, t.running, t.faultLatch, t.reg .r7, t.pc)) =
    some ([0x0A, 0x48], false, none, 0x3001, 0x3001) := by decide
theorem test_unknown_trap : leaves (stepAt 0x3000 0xF026 base) (fun t => (t.faultLatch, t.reg .r7, t.pc)) =
    some (some (.unknownTrap 0x26 0x3000), 0x3001, 0x3001) := by decide

/-! ### Failures: U1, U3, U4, U5, U6, U7 -/

theorem test_rti : leaves (stepAt 0x3000 0x8FFF base) (fun t => (t.faultLatch, t.pc)) =
    some (some (.illegalOpcode 8 0x3000), 0x3001) := by decide
theorem test_reserved : leaves (stepAt 0x4000 0xD123 base) (fun t => (t.faultLatch, t.pc)) =
    some (some (.illegalOpcode 13 0x4000), 0x4001) := by decide
theorem test_latched : step { base with faultLatch := some (.illegalOpcode 8 0x3000), running := false } =
    .fault (.failed (.illegalOpcode 8 0x3000)) := by rfl
theorem test_fetch_polls : leaves (step { base.setPc 0xFE00 with inputQueue := [0x41] })
    (fun t => (t.faultLatch, t.peek 0xFE02, t.inputQueue, t.pc)) =
    some (some (.illegalOpcode 8 0xFE00), 0x41, [], 0xFE01) := by decide
theorem test_fetch_polls_empty : leaves (step (given (base.setPc 0xFE00) [] [(0xFE00, 0x1021)]))
    (fun t => (t.faultLatch, t.reg .r0, t.peek 0xFE00, t.pc)) = some (none, 0, 0, 0xFE01) := by decide
theorem test_halted : stepAt 0x3000 0x1021 base.requestHalt =
    .next ((base.requestHalt.setPc 0x3000).memWrite 0x3000 0x1021) := by rfl

/-! ### Host transactions: L2, L4, L5, L6, L7, and the rows of R190 -/

/-- What a load leaves at `a`, and its segment record. -/
def loaded (bs : List Byte) (a : Word) : Option (Word × List (Word × Nat)) :=
  match base.loadImage (some bs) with
  | .ok t => some (t.peek a, t.segments)
  | .error _ => none

theorem test_load_short : base.loadImage (some [0x30]) = .error .originMissing := by rfl
theorem test_load_large : base.loadImage (some [0xFF, 0xFF, 0, 1, 0, 2]) = .error .tooLarge := by rfl
theorem test_load_top : loaded [0xFF, 0xFF, 0, 7] 0xFFFF = some (7, [(0xFFFF, 1)]) := by decide
theorem test_load_odd : loaded [0x30, 0, 0x12, 0x34, 0x56] 0x3000 = some (0x1234, [(0x3000, 1)]) := by decide
theorem test_load_empty : loaded [0x40, 0] 0x4000 = some (0, [(0x4000, 0)]) := by decide
theorem test_slots : slotOfIndex 7 = some (.gpr .r7) ∧ slotOfIndex 8 = some .pc ∧ slotOfIndex 9 = some .cond ∧
    slotOfIndex 10 = none := by decide
theorem test_write_cond : base.writeReg 9 3 = none ∧ (base.writeReg 9 4).map State.cond = some 4 := by decide
theorem test_read_mem_polls_not : { base with inputQueue := [0x41] }.readMem 0xFE00 = 0 := by decide

/-! ### Witnesses: each decode clause at the two ends of its words -/

theorem witness_word_add : (0x1000 : Word).extractLsb' 12 4 = 1#4 ∧ (0x1000 : Word).getLsbD 5 = false ∧
    (0x1FDF : Word).extractLsb' 12 4 = 1#4 ∧ (0x1FDF : Word).getLsbD 5 = false ∧
    (0x1020 : Word).getLsbD 5 = true ∧ (0x1FFF : Word).extractLsb' 12 4 = 1#4 ∧ (0x1FFF : Word).getLsbD 5 = true := by
  decide
theorem witness_word_and : (0x5000 : Word).extractLsb' 12 4 = 5#4 ∧ (0x5000 : Word).getLsbD 5 = false ∧
    (0x5FDF : Word).extractLsb' 12 4 = 5#4 ∧ (0x5FDF : Word).getLsbD 5 = false ∧
    (0x5020 : Word).getLsbD 5 = true ∧ (0x5FFF : Word).extractLsb' 12 4 = 5#4 ∧ (0x5FFF : Word).getLsbD 5 = true := by
  decide
theorem witness_word_jsr : (0x4000 : Word).extractLsb' 12 4 = 4#4 ∧ (0x47FF : Word).getLsbD 11 = false ∧
    (0x47FF : Word).extractLsb' 12 4 = 4#4 ∧ (0x4800 : Word).getLsbD 11 = true ∧
    (0x4FFF : Word).extractLsb' 12 4 = 4#4 ∧ (0x4FFF : Word).getLsbD 11 = true := by decide
theorem witness_word_plain : [(0x0000, 0), (0x0FFF, 0), (0x2000, 2), (0x2FFF, 2), (0x3000, 3), (0x3FFF, 3), (0x6000, 6),
    (0x6FFF, 6), (0x7000, 7), (0x7FFF, 7), (0x8000, 8), (0x8FFF, 8), (0x9000, 9), (0x9FFF, 9), (0xA000, 10),
    (0xAFFF, 10), (0xB000, 11), (0xBFFF, 11), (0xC000, 12), (0xCFFF, 12), (0xD000, 13), (0xDFFF, 13), (0xE000, 14),
    (0xEFFF, 14), (0xF000, 15), (0xFFFF, 15)].all
    (fun p : Word × BitVec 4 => p.1.extractLsb' 12 4 == p.2) = true := by decide

/-- Two words that meet the clause of `IgnoredBitsChangeNothing` with this opcode, and differ. -/
def ignoredPair (op : BitVec 4) (w v : Word) : Bool := w.extractLsb' 12 4 == op && v.extractLsb' 12 4 == op && w != v

theorem witness_ignored_operate : ignoredPair 1 0x1419 0x1401 = true ∧ ignoredPair 5 0x5FDF 0x5FC7 = true ∧
    (0x1419 : Word).getLsbD 5 = false ∧ (0x1401 : Word).getLsbD 5 = false ∧
    (0x1419 : Word).extractLsb' 5 7 = (0x1401 : Word).extractLsb' 5 7 ∧
    (0x1419 : Word).extractLsb' 0 3 = (0x1401 : Word).extractLsb' 0 3 ∧
    (0x5FDF : Word).getLsbD 5 = false ∧ (0x5FC7 : Word).getLsbD 5 = false ∧
    (0x5FDF : Word).extractLsb' 5 7 = (0x5FC7 : Word).extractLsb' 5 7 ∧
    (0x5FDF : Word).extractLsb' 0 3 = (0x5FC7 : Word).extractLsb' 0 3 := by decide
theorem witness_ignored_not : ignoredPair 9 0x92BF 0x9280 = true ∧
    (0x92BF : Word).extractLsb' 6 6 = (0x9280 : Word).extractLsb' 6 6 := by decide
theorem witness_ignored_jmp : ignoredPair 12 0xCFFF 0xC1C0 = true ∧
    (0xCFFF : Word).extractLsb' 6 3 = (0xC1C0 : Word).extractLsb' 6 3 := by decide
theorem witness_ignored_jsrr : ignoredPair 4 0x47FF 0x41C0 = true ∧ (0x47FF : Word).getLsbD 11 = false ∧
    (0x41C0 : Word).getLsbD 11 = false ∧ (0x47FF : Word).extractLsb' 6 3 = (0x41C0 : Word).extractLsb' 6 3 := by decide
theorem witness_ignored_trap : ignoredPair 15 0xFF21 0xF021 = true ∧
    (0xFF21 : Word).extractLsb' 0 8 = (0xF021 : Word).extractLsb' 0 8 := by decide
theorem witness_ignored_failing : ignoredPair 8 0x8FFF 0x8000 = true ∧ ignoredPair 13 0xDFFF 0xD000 = true := by decide

/-! ### Witnesses: operands, flags, memory -/

/-- The bit numbers of the two clauses, at b = 1, 5 and 16; at 16 the second clause's range is empty, as it should be. -/
theorem witness_sext_bits : (1 ≤ 1 ∧ 1 ≤ 16 ∧ 0 < 1 ∧ 1 ≤ 15 ∧ 15 < 16) ∧ (1 ≤ 5 ∧ 5 ≤ 16 ∧ 4 < 5 ∧ 5 ≤ 5 ∧ 5 < 16) ∧
    (1 ≤ 16 ∧ 16 ≤ 16 ∧ 15 < 16 ∧ ¬ ∃ j, 16 ≤ j ∧ j < 16) := by
  refine ⟨by decide, by decide, by decide, by decide, by decide, ?_⟩
  rintro ⟨j, h, k⟩
  omega
theorem witness_setcc : (0x8000 : Word) ≠ 0 ∧ (0x8000 : Word).getLsbD 15 = true ∧ (0xFFFF : Word).getLsbD 15 = true ∧
    (0x7FFF : Word) ≠ 0 ∧ (0x7FFF : Word).getLsbD 15 = false ∧ (1 : Word) ≠ 0 ∧ (1 : Word).getLsbD 15 = false := by decide
theorem witness_plain_read : (0xFDFF : Word) ≠ 0xFE00 ∧ (0xFE01 : Word) ≠ 0xFE00 ∧ (0xFE02 : Word) ≠ 0xFE00 := by decide

/-- LIVE with one byte queued: the state of the first clauses of KbsrReadPolls, TrapGetc and TrapIn. -/
def queued : State := { base with inputQueue := [0x41] }

/-- INJECTED with a character stored: the state of their INJECTED clauses. -/
def stored : State := given injected [] [(0xFE00, 0x8000), (0xFE02, 0x41)]

theorem witness_live_queued : queued.params.inputMode = .live ∧ queued.inputQueue = 0x41 :: [] := by decide
theorem witness_live_empty : base.params.inputMode = .live ∧ base.inputQueue = [] := by decide
theorem witness_injected_ready : stored.params.inputMode = .injected ∧ (stored.peek 0xFE00).getLsbD 15 = true := by decide
theorem witness_no_character : ¬ base.CharReady ∧ ¬ (given injected [] [(0xFE00, 0x7FFF)]).CharReady := by
  constructor <;> (unfold State.CharReady; decide)

/-- LDI through a pointer read at KBSR, which polls; the data word is read where the polled word says. -/
theorem witness_ldi_reads : ∃ m, queued.memRead 0xFE00 = (0x8000, m) ∧ m.memRead 0x8000 = (0, m) := ⟨_, rfl, rfl⟩
theorem witness_ldi_pointer : (queued.setPc 0xFE01).pc + BitVec.ofInt 16 (0x1FF : BitVec 9).toInt = 0xFE00 := by decide
theorem witness_sti_read : ∃ m, queued.memRead 0x3003 = (0, m) := ⟨_, rfl⟩

/-! ### Witnesses: control and TRAP -/

theorem witness_br_conds : [(1 : Word), 2, 4].all (fun c => { base with cond := c }.cond == c && condLegal c) = true := by
  decide
theorem witness_call : (∃ t, exec (.jsr 3) base = .next t) ∧ ∃ t, exec (.jsrr 0 .r7 0) base = .next t := ⟨⟨_, rfl⟩, _, rfl⟩
theorem witness_halt_step : condLegal base.cond = true ∧ base.faultLatch = none := by decide
theorem witness_unknown_vectors : (0x00 : BitVec 8).toNat < 0x20 ∧ (0x1F : BitVec 8).toNat < 0x20 ∧
    0x25 < (0x26 : BitVec 8).toNat ∧ 0x25 < (0xFF : BitVec 8).toNat := by decide

/-- A string "A" at 0xFDFE whose zero word stands just before KBSR. -/
theorem witness_string_live :
    let s := given base [(.r0, 0xFDFE)] [(0xFDFE, 0x41)]
    s.peek (s.reg .r0 + BitVec.ofNat 16 1) = 0 ∧ (∀ k, k < 1 → s.peek (s.reg .r0 + BitVec.ofNat 16 k) ≠ 0) ∧
      ∀ k, k ≤ 1 → s.reg .r0 + BitVec.ofNat 16 k ≠ 0xFE00 := by
  intro s
  refine ⟨by decide, ?_, ?_⟩
  · intro k h
    obtain rfl : k = 0 := by omega
    decide
  · intro k h
    obtain rfl | rfl : k = 0 ∨ k = 1 := by omega
    all_goals decide

/-- The empty string, and in INJECTED mode a string that goes through KBSR and wraps past 0xFFFF. -/
theorem witness_string_empty : base.peek (base.reg .r0 + BitVec.ofNat 16 0) = 0 ∧
    base.reg .r0 + BitVec.ofNat 16 0 ≠ 0xFE00 := by decide
theorem witness_string_injected :
    let s := given injected [(.r0, 0xFE00)] [(0xFE00, 0x41)]
    s.params.inputMode = .injected ∧ s.peek (s.reg .r0 + BitVec.ofNat 16 1) = 0 ∧
      ∀ k, k < 1 → s.peek (s.reg .r0 + BitVec.ofNat 16 k) ≠ 0 := by
  intro s
  refine ⟨rfl, by decide, fun k h => ?_⟩
  obtain rfl : k = 0 := by omega
  decide

/-- INJECTED mode, the first n words of memory TRAP PUTS: with n = 65536 no word is zero. -/
def noZero (n : Nat) : State := { injected with mem := (List.range n).map (fun k => (k, (0xF022 : Word))) }

theorem lookup_noZero {a : Nat} : ∀ {l : List Nat}, a ∈ l → Memory.lookup (l.map (fun k => (k, (0xF022 : Word)))) a = 0xF022
  | [], h => absurd h List.not_mem_nil
  | k :: l, h => by
    simp only [List.map_cons, Memory.lookup]
    split
    · rfl
    · next hk => exact lookup_noZero ((List.mem_cons.1 h).resolve_left (fun e => hk e.symm))

theorem peek_noZero {n : Nat} (h : 2 ^ 16 ≤ n) (a : Word) : (noZero n).peek a = 0xF022 :=
  lookup_noZero (List.mem_range.2 (Nat.lt_of_lt_of_le a.isLt h))

theorem witness_no_zero_word : ∃ s : State, s.params.inputMode = .injected ∧ ∀ a : Word, s.peek a ≠ 0 := by
  obtain ⟨n, h⟩ : ∃ n, 2 ^ 16 ≤ n := ⟨_, Nat.le_refl _⟩
  exact ⟨noZero n, rfl, fun a => by rw [peek_noZero h]; decide⟩
theorem witness_zero_word : injected.params.inputMode = .injected ∧ ∃ a : Word, injected.peek a = 0 := ⟨rfl, 0, rfl⟩

/-! ### Witnesses: the step -/

theorem witness_ready : base.Ready ∧ injected.Ready := by unfold State.Ready; decide
theorem witness_latched : condLegal { base with faultLatch := some (.illegalOpcode 8 0x3000) }.cond = true ∧
    { base with faultLatch := some (.illegalOpcode 8 0x3000) }.faultLatch = some (.illegalOpcode 8 0x3000) := by decide
theorem witness_halted : condLegal base.requestHalt.cond = true ∧ base.requestHalt.faultLatch = none ∧
    base.requestHalt.running = false := by decide

/-- A failing step of each kind, from a clear latch: RTI, and TRAP with the vectors 0x1F and 0x26. -/
theorem witness_fails : base.faultLatch = none ∧
    (∃ t, stepAt 0x3000 0x8000 base = .next t ∧ t.faultLatch = some (.illegalOpcode 8 0x3000)) ∧
    (∃ t, stepAt 0x3000 0xF01F base = .next t ∧ t.faultLatch = some (.unknownTrap 0x1F 0x3000)) ∧
    ∃ t, stepAt 0x3000 0xF026 base = .next t ∧ t.faultLatch = some (.unknownTrap 0x26 0x3000) :=
  ⟨rfl, ⟨_, rfl, rfl⟩, ⟨_, rfl, rfl⟩, _, rfl, rfl⟩

theorem witness_held : stepAt 0x3000 0xF023 base = .fault .held ∧ stepAt 0x3000 0xF020 injected = .fault .held := ⟨rfl, rfl⟩
theorem witness_held_live_input : ∃ t, ((base.setPc 0x3000).memWrite 0x3000 0xF023).giveInput 0x41 = some t := ⟨_, rfl⟩
theorem witness_held_injected_input : ((injected.setPc 0x3000).memWrite 0x3000 0xF020).params.inputMode = .injected ∧ (0x8000 : Word).getLsbD 15 = true ∧
    (0x3000 : Word) ≠ 0xFE00 ∧ (0x3000 : Word) ≠ 0xFE02 := by decide
theorem witness_refused : ¬ (({ base with cond := 3 }).cond = 1 ∨ ({ base with cond := 3 }).cond = 2 ∨
    ({ base with cond := 3 }).cond = 4) := by decide

/-- ST R0 with offset 0 at 0x3000. -/
theorem witness_store_next : (base.memWrite 0x3000 0x3000).Ready ∧ (0x3000 : Word) ≠ 0xFE00 ∧ (0x3000 : Word) + 1 ≠ 0xFE00 ∧
    decode ((base.memWrite 0x3000 0x3000).peek 0x3000) = .st .r0 0 := by
  unfold State.Ready
  decide

/-- Two zero words, at 0xFFFF and 0x0000: the slide wraps. -/
theorem witness_slide : ∀ k, k < 2 → (base.setPc 0xFFFF).pc + BitVec.ofNat 16 k ≠ 0xFE00 ∧
    (base.setPc 0xFFFF).peek ((base.setPc 0xFFFF).pc + BitVec.ofNat 16 k) = 0 := by
  intro k h
  obtain rfl | rfl : k = 0 ∨ k = 1 := by omega
  all_goals decide

/-! ### Witnesses: the whole-machine rules. exec answers a next state for every constructor, and every TRAP service -/

theorem witness_next : [Instr.br 7 1, .addReg .r0 .r1 0 .r2, .addImm .r0 .r1 1, .ld .r0 1, .st .r0 1, .jsrr 0 .r3 0, .jsr 1,
    .andReg .r0 .r1 0 .r2, .andImm .r0 .r1 1, .ldr .r0 .r1 1, .str .r0 .r1 1, .rti 0, .not .r0 .r1 0x3F, .ldi .r0 1,
    .sti .r0 1, .jmp 0 .r1 0, .reserved 0, .lea .r0 1, .trap 0 0x20, .trap 0 0x21, .trap 0 0x22, .trap 0 0x23,
    .trap 0 0x24, .trap 0 0x25, .trap 0 0x26].all (fun i => (leaves (exec i queued) (fun _ => ())).isSome) = true := by
  decide

/-- An instruction that is no BR, no store, no load and no TRAP; and a load, which is no store. -/
theorem witness_not_br : (∀ nzp off, Instr.lea .r0 1 ≠ .br nzp off) ∧ (∀ sr off, Instr.lea .r0 1 ≠ .st sr off) ∧
    (∀ sr off, Instr.lea .r0 1 ≠ .sti sr off) ∧ (∀ sr b off, Instr.lea .r0 1 ≠ .str sr b off) ∧
    (∀ dr off, Instr.lea .r0 1 ≠ .ld dr off) ∧ (∀ dr off, Instr.lea .r0 1 ≠ .ldi dr off) ∧
    (∀ dr b off, Instr.lea .r0 1 ≠ .ldr dr b off) ∧ (∀ sp v, Instr.lea .r0 1 ≠ .trap sp v) ∧
    (∀ sr off, Instr.ld .r0 1 ≠ .st sr off) ∧ (∀ sr off, Instr.ld .r0 1 ≠ .sti sr off) ∧
    (∀ sr b off, Instr.ld .r0 1 ≠ .str sr b off) := by
  refine ⟨?_, ?_, ?_, ?_, ?_, ?_, ?_, ?_, ?_, ?_, ?_⟩ <;> intros <;> exact Instr.noConfusion

/-- The register clauses: R1 is no destination of ADD R0, of JSR, or of GETC. -/
theorem witness_other_register : Reg.r1 ≠ .r0 ∧ Reg.r1 ≠ .r7 := by decide

/-- JSRR's PC clause has its parameter false. -/
theorem witness_jsrr_order : base.params.jsrrReadsBaseFirst = false := rfl

theorem witness_latch_changes : ∃ t, exec (.rti 0) base = .next t ∧ t.faultLatch ≠ base.faultLatch :=
  ⟨_, rfl, by decide⟩

theorem witness_inv_step : base.Inv ∧ ∃ t, step base = .next t := by
  refine ⟨⟨by decide, by decide, trivial⟩, _, rfl⟩

/-! ### Witnesses: host transactions -/

/-- An image that fills the last word of memory, one that is a word too long, and two with no whole origin. -/
theorem witness_image_fits : ((0xFF : Byte).toNat * 256 + (0xFF : Byte).toNat) + ([0, 7] : List Byte).length / 2 ≤ 65536 := by
  decide
theorem witness_image_large : 65536 < ((0xFF : Byte).toNat * 256 + (0xFF : Byte).toNat) +
    ([0, 1, 0, 2] : List Byte).length / 2 := by decide
theorem witness_image_short : ([] : List Byte).length < 2 ∧ ([0x30] : List Byte).length < 2 := by decide

/-- Each return of a watched run. -/
theorem witness_run_ok : base.requestHalt.runFor 1 = .returns .ok base.requestHalt := rfl
theorem witness_run_failed : { base with faultLatch := some (.illegalOpcode 8 0x3000) }.runFor 0 =
    .returns (.failed (.illegalOpcode 8 0x3000)) { base with faultLatch := some (.illegalOpcode 8 0x3000) } := rfl
theorem witness_run_held : (base.memWrite 0x3000 0xF020).runFor 1 = .returns .held (base.memWrite 0x3000 0xF020) := rfl
theorem witness_run_refused : { base with cond := 3 }.runFor 1 = .returns (.refused .illegalCond) { base with cond := 3 } := rfl
theorem witness_run_running : ∃ t, base.runFor 1 = .returns .running t := ⟨_, rfl⟩

/-- In INJECTED mode a scan over words that are never zero does not end. -/
theorem scan_noZero {n : Nat} (h : 2 ^ 16 ≤ n) (bytes : Word → List Byte) : ∀ (fuel : Nat) (a : Word) (s : State),
    s.params.inputMode = .injected → s.mem = (noZero n).mem → scan bytes fuel a s = none
  | 0, _, _, _, _ => rfl
  | fuel + 1, a, s, hm, hs => by
    have hp : s.poll = s := by unfold State.poll; rw [hm]
    have hr : s.memRead a = (0xF022, s) := by
      have hk : s.peek a = 0xF022 := by unfold State.peek; rw [hs]; exact peek_noZero h a
      unfold State.memRead
      simp only [hp, ite_self, hk]
    simp only [scan, hr]
    rw [if_neg (by decide)]
    exact scan_noZero h bytes fuel (a + 1) _ hm hs

theorem step_noZero {n : Nat} (h : 2 ^ 16 ≤ n) : step (noZero n) = .fault .diverged := by
  have hf : (noZero n).fetch = (0xF022, (noZero n).setPc 0x3001) := by
    show ((noZero n).peek 0x3000, (noZero n).setPc 0x3001) = _
    rw [peek_noZero h]
  have he : step (noZero n) = exec (decode (noZero n).fetch.1) (noZero n).fetch.2 := rfl
  rw [he, hf]
  have hd : decode 0xF022 = .trap 0 0x22 := by decide
  show exec (decode 0xF022) ((noZero n).setPc 0x3001) = _
  rw [hd]
  show State.scanFromR0 putsBytes ((noZero n).setPc 0x3001).link = _
  unfold State.scanFromR0
  rw [scan_noZero h putsBytes _ _ ((noZero n).setPc 0x3001).link rfl rfl]

theorem witness_step_diverged : ∃ s : State, step s = .fault .diverged := by
  obtain ⟨n, h⟩ : ∃ n, 2 ^ 16 ≤ n := ⟨_, Nat.le_refl _⟩
  exact ⟨noZero n, step_noZero h⟩

theorem witness_run_diverged : ∃ s : State, s.runFor 1 = .diverged := by
  obtain ⟨n, h⟩ : ∃ n, 2 ^ 16 ≤ n := ⟨_, Nat.le_refl _⟩
  refine ⟨noZero n, ?_⟩
  have hs := step_noZero h
  have hl : (noZero n).faultLatch = none := rfl
  have hr : (noZero n).running = true := rfl
  simp only [State.runFor, hl, hr, hs, if_true]

end Sys2Proof.Tests
end

section
/-! PROOFS. The condition code: what `setcc` writes, and which instructions write COND and read it (R27, R29).

That an instruction does not read COND is stated as a commutation with `State.setCond`: changing COND first and running
the instruction then is running it and changing COND afterwards. Such an instruction also leaves COND unchanged, so one
property says both. -/

namespace Sys2Proof

/-- The register an instruction sets COND from, if it writes COND (R29). -/
def Instr.condReg : Instr → Option Reg
  | .addReg dr _ _ _ | .addImm dr _ _ | .andReg dr _ _ _ | .andImm dr _ _ | .not dr _ _ | .ld dr _ | .ldi dr _
  | .ldr dr _ _ | .lea dr _ => some dr
  | .trap _ vect => if vect = 0x20 ∨ vect = 0x23 then some .r0 else none
  | .br _ _ | .st _ _ | .sti _ _ | .str _ _ _ | .jmp _ _ _ | .jsr _ | .jsrr _ _ _ | .rti _ | .reserved _ => none

theorem Instr.condReg_trap_of_char (spare : BitVec 4) {vect : BitVec 8} (h : vect = 0x20 ∨ vect = 0x23) :
    (Instr.trap spare vect).condReg = some .r0 := if_pos h

theorem Instr.condReg_trap_of_not_char (spare : BitVec 4) {vect : BitVec 8} (h : ¬ (vect = 0x20 ∨ vect = 0x23)) :
    (Instr.trap spare vect).condReg = none := if_neg h

namespace Machine

/-! ### The value of a condition code -/

theorem condOf_eq_flagFor (v : Word) : condOf v = flagFor v := rfl

@[simp] theorem flagFor_zero : flagFor 0 = 2 := rfl

theorem flagFor_of_negative {v : Word} (h0 : v ≠ 0) (h15 : v.getLsbD 15 = true) : flagFor v = 4 := by
  rw [flagFor, if_neg h0, if_pos h15]

theorem flagFor_of_positive {v : Word} (h0 : v ≠ 0) (h15 : v.getLsbD 15 = false) : flagFor v = 1 := by
  rw [flagFor, if_neg h0, h15, if_neg Bool.false_ne_true]

theorem State.setcc_quiet (s : State) (v : Word) : s.Quiet (s.setcc v) := ⟨rfl, rfl, rfl, rfl, rfl⟩

/-- Settles O6: the three values are `flagFor`'s, and `setcc` is an update of COND alone. -/
theorem setccRule : Obligations.SetccRule := by
  intro s v
  refine ⟨fun h => ?zero, flagFor_of_negative, flagFor_of_positive, fun r => State.reg_setcc s v r,
    fun a => State.peek_setcc s v a, State.setcc_pc s v, State.setcc_inputQueue s v, State.setcc_quiet s v⟩
  rw [h, State.setcc_cond, condOf_eq_flagFor, flagFor_zero]

/-- Settles O55: the reset values of R23, R26 and R30 are the fields of `State.reset`. -/
theorem resetRegisters : Obligations.ResetRegisters :=
  ⟨fun r => by cases r <;> rfl, rfl, rfl⟩

/-! ### Another COND, and the shared operations -/

/-- The state with another COND. -/
def State.setCond (s : State) (c : Word) : State := { s with cond := c }

@[simp] theorem State.setCond_cond (s : State) (c : Word) : (s.setCond c).cond = c := rfl

@[simp] theorem State.setCond_self (s : State) : s.setCond s.cond = s := rfl

@[simp] theorem State.reg_setCond (s : State) (c : Word) (r : Reg) : (s.setCond c).reg r = s.reg r := rfl

@[simp] theorem State.peek_setCond (s : State) (c a : Word) : (s.setCond c).peek a = s.peek a := rfl

@[simp] theorem State.pcRel9_setCond (s : State) (c : Word) (off : BitVec 9) :
    (s.setCond c).pcRel9 off = s.pcRel9 off := rfl

@[simp] theorem State.poll_setCond (s : State) (c : Word) : (s.setCond c).poll = s.poll.setCond c := by
  cases hm : s.params.inputMode with
  | injected => simp [State.poll, State.setCond, hm]
  | live => cases hq : s.inputQueue <;> simp [State.poll, State.setCond, State.memWrite, hm, hq]

@[simp] theorem State.memRead_setCond (s : State) (c a : Word) :
    (s.setCond c).memRead a = ((s.memRead a).1, (s.memRead a).2.setCond c) := by
  by_cases ha : a = kbsr <;> simp [State.memRead, ha]

@[simp] theorem State.inGet_setCond (s : State) (c : Word) :
    (s.setCond c).inGet = s.inGet.map (fun p => (p.1, p.2.setCond c)) := by
  cases hm : s.params.inputMode with
  | live => cases hq : s.inputQueue <;> simp [State.inGet, State.setCond, hm, hq]
  | injected =>
    have hp : (s.setCond c).params.inputMode = .injected := hm
    cases hk : (s.peek kbsr).getLsbD 15 <;> simp [State.inGet, hm, hp, hk] <;> rfl

theorem scan_setCond (bytes : Word → List Byte) (fuel : Nat) (a : Word) (s : State) (c : Word) :
    scan bytes fuel a (s.setCond c) = (scan bytes fuel a s).map (·.setCond c) := by
  induction fuel generalizing a s with
  | zero => rfl
  | succ fuel ih =>
    simp only [scan, State.memRead_setCond]
    split
    · rfl
    · exact ih (a + 1) ((s.memRead a).2.out (bytes (s.memRead a).1))

/-! ### The two ways an instruction other than BR treats COND -/

/-- What a step answers, with another COND in the next state. -/
def Result.setCond (c : Word) : Result → Result
  | .next t => .next (t.setCond c)
  | .fault f => .fault f
  | .refused p => .refused p

/-- `f` neither reads COND nor writes it. -/
def IgnoresCond (f : State → Result) : Prop := ∀ s c, f (s.setCond c) = Result.setCond c (f s)

/-- `f` does not read COND, and sets it from the value `r` holds afterwards. -/
structure SetsCondFrom (r : Reg) (f : State → Result) : Prop where
  unread : ∀ s c, f (s.setCond c) = f s
  written : ∀ s t, f s = .next t → t.cond = flagFor (t.reg r)

/-- What does not read COND and passes it on leaves it unchanged: run it with COND replaced by itself. -/
theorem IgnoresCond.cond_eq {f : State → Result} (hf : IgnoresCond f) {s t : State} (h : f s = .next t) :
    t.cond = s.cond := by
  have hself : Host.Outcome.next t = Result.setCond s.cond (.next t) := by simpa [h] using hf s s.cond
  injection hself with ht
  rw [ht, State.setCond_cond]

theorem ignoresCond_next {m : State → State} (hm : ∀ s c, m (s.setCond c) = (m s).setCond c) :
    IgnoresCond (fun s => .next (m s)) := fun s c => congrArg Host.Outcome.next (hm s c)

/-- `r` answers the result and the state the reads left. -/
theorem setsCondFrom_writeResult (dr : Reg) {r : State → Word × State}
    (hr : ∀ s c, r (s.setCond c) = ((r s).1, (r s).2.setCond c)) :
    SetsCondFrom dr (fun s => .next ((r s).2.writeResult dr (r s).1)) where
  unread s c := by rw [hr]; rfl
  written s t h := by cases h; simp [condOf_eq_flagFor]

theorem IgnoresCond.afterLink {f : State → Result} (hf : IgnoresCond f) : IgnoresCond (fun s => f s.link) :=
  fun s c => hf s.link c

theorem SetsCondFrom.afterLink {r : Reg} {f : State → Result} (hf : SetsCondFrom r f) :
    SetsCondFrom r (fun s => f s.link) where
  unread s c := hf.unread s.link c
  written s := hf.written s.link

/-! ### The TRAP services -/

/-- A service that takes a character or is held, changes the state by `m` and returns the character in R0. -/
theorem setsCondFrom_inGet {f : State → Result} {m : Byte → State → State}
    (hm : ∀ b s c, m b (s.setCond c) = (m b s).setCond c)
    (hf : ∀ s, f s = s.inGet.elim (.fault .held) (fun p => .next ((m p.1 p.2).writeResult .r0 (charWord p.1)))) :
    SetsCondFrom .r0 f where
  unread s c := by
    rw [hf, hf, State.inGet_setCond]
    cases s.inGet with
    | none => rfl
    | some p => simp only [Option.map_some, Option.elim_some, hm]; rfl
  written s t h := by
    rw [hf] at h
    cases hg : s.inGet with
    | none => rw [hg] at h; cases h
    | some p => rw [hg] at h; cases h; simp [condOf_eq_flagFor]

theorem trapGetc_setsCond : SetsCondFrom .r0 trapGetc :=
  setsCondFrom_inGet (m := fun _ s => s) (fun _ _ _ => rfl) fun s => by
    unfold trapGetc
    cases s.inGet <;> rfl

theorem trapIn_setsCond : SetsCondFrom .r0 trapIn :=
  setsCondFrom_inGet (m := fun b s => (s.out s.params.inPrompt).out [b]) (fun _ _ _ => rfl) fun s => by
    unfold trapIn
    cases s.inGet <;> rfl

theorem scanFromR0_ignoresCond (bytes : Word → List Byte) : IgnoresCond (State.scanFromR0 bytes) := by
  intro s c
  have hscan := scan_setCond bytes s.scanFuel (s.reg .r0) s c
  have hfuel : (s.setCond c).scanFuel = s.scanFuel := rfl
  simp only [State.scanFromR0, hfuel, State.reg_setCond, hscan]
  cases scan bytes s.scanFuel (s.reg .r0) s <;> rfl

/-- The vectors the dispatcher tells apart (R140, R149). -/
theorem trapVector_cases (vect : BitVec 8) :
    vect = 0x20 ∨ vect = 0x21 ∨ vect = 0x22 ∨ vect = 0x23 ∨ vect = 0x24 ∨ vect = 0x25 ∨
      (vect.toNat < 0x20 ∨ 0x25 < vect.toNat) := by
  bv_omega

/-- A vector outside 0x20 to 0x25 links and fails (R149). -/
theorem execTrap_unknown {vect : BitVec 8} (h : vect.toNat < 0x20 ∨ 0x25 < vect.toNat) (s : State) :
    execTrap vect s = s.link.raiseUnknownTrap vect := by
  unfold execTrap
  split
  case h_7 => rfl
  all_goals omega

theorem execTrap_setsCond {vect : BitVec 8} (h : vect = 0x20 ∨ vect = 0x23) : SetsCondFrom .r0 (execTrap vect) := by
  rcases h with rfl | rfl
  · exact trapGetc_setsCond.afterLink
  · exact trapIn_setsCond.afterLink

theorem execTrap_ignoresCond {vect : BitVec 8} (h : ¬ (vect = 0x20 ∨ vect = 0x23)) : IgnoresCond (execTrap vect) := by
  obtain rfl | rfl | rfl | rfl | rfl | rfl | hu := trapVector_cases vect
  · exact absurd (.inl rfl) h
  · exact ignoresCond_next fun _ _ => rfl
  · exact (scanFromR0_ignoresCond putsBytes).afterLink
  · exact absurd (.inr rfl) h
  · exact (scanFromR0_ignoresCond putspBytes).afterLink
  · exact ignoresCond_next fun _ _ => rfl
  · rw [funext (execTrap_unknown hu)]
    exact ignoresCond_next fun _ _ => rfl

/-! ### No instruction is refused -/

theorem trapGetc_ne_refused (s : State) (p : Refusal) : trapGetc s ≠ .refused p := by
  unfold trapGetc
  split <;> exact nofun

theorem trapIn_ne_refused (s : State) (p : Refusal) : trapIn s ≠ .refused p := by
  unfold trapIn
  split <;> exact nofun

theorem scanFromR0_ne_refused (bytes : Word → List Byte) (s : State) (p : Refusal) :
    s.scanFromR0 bytes ≠ .refused p := by
  unfold State.scanFromR0
  split <;> exact nofun

theorem execTrap_ne_refused (vect : BitVec 8) (s : State) (p : Refusal) : execTrap vect s ≠ .refused p := by
  obtain rfl | rfl | rfl | rfl | rfl | rfl | hu := trapVector_cases vect
  · exact trapGetc_ne_refused s.link p
  · exact nofun
  · exact scanFromR0_ne_refused putsBytes s.link p
  · exact trapIn_ne_refused s.link p
  · exact scanFromR0_ne_refused putspBytes s.link p
  · exact nofun
  · rw [execTrap_unknown hu]
    exact nofun

/-- Every instruction has a meaning: `exec` refuses none. -/
theorem exec_ne_refused (i : Instr) (s : State) (p : Refusal) : exec i s ≠ .refused p := by
  cases i with
  | trap spare vect => exact execTrap_ne_refused vect s p
  | _ => exact nofun

/-! ### Every instruction -/

theorem State.branchTaken_iff (s : State) (nzp : BitVec 3) :
    s.branchTaken nzp = true ↔ nzp.setWidth 16 &&& s.cond ≠ 0 := bne_iff_ne

/-- All BR does (R130): it moves PC where nzp AND COND is not zero. -/
theorem exec_br (nzp : BitVec 3) (off : BitVec 9) (s : State) : exec (.br nzp off) s =
    .next { s with pc := if nzp.setWidth 16 &&& s.cond ≠ 0 then s.pc + BitVec.ofInt 16 off.toInt else s.pc } := by
  show Host.Outcome.next (if s.branchTaken nzp then s.setPc (s.pcRel9 off) else s) = _
  simp only [State.branchTaken_iff]
  split <;> rfl

/-- What an instruction other than BR does with COND, by the register it sets COND from. -/
def CondUse (f : State → Result) : Option Reg → Prop
  | some r => SetsCondFrom r f
  | none => IgnoresCond f

theorem execLdi_setsCond (dr : Reg) (off : BitVec 9) : SetsCondFrom dr (execLdi dr off) :=
  setsCondFrom_writeResult dr (r := fun s => (s.memRead (s.pcRel9 off)).2.memRead (s.memRead (s.pcRel9 off)).1)
    fun s c => by simp

theorem execSti_ignoresCond (sr : Reg) (off : BitVec 9) : IgnoresCond (execSti sr off) := by
  intro s c
  simp only [execSti, State.pcRel9_setCond, State.memRead_setCond]
  rfl

/-- Every instruction but BR either ignores COND or sets it from its `condReg` (R29). -/
theorem exec_condUse (i : Instr) (hbr : ∀ nzp off, i ≠ .br nzp off) : CondUse (exec i) i.condReg := by
  cases i with
  | br nzp off => exact absurd rfl (hbr nzp off)
  | addReg dr | addImm dr | andReg dr | andImm dr | not dr | lea dr =>
    exact setsCondFrom_writeResult dr (r := fun s => (_, s)) fun _ _ => rfl
  | ld dr off => exact setsCondFrom_writeResult dr fun s c => s.memRead_setCond c (s.pcRel9 off)
  | ldr dr base off => exact setsCondFrom_writeResult dr fun s c => s.memRead_setCond c (s.baseOff base off)
  | ldi dr off => exact execLdi_setsCond dr off
  | sti sr off => exact execSti_ignoresCond sr off
  | st | str | jmp | jsr | jsrr | rti | reserved => exact fun _ _ => rfl
  | trap spare vect =>
    by_cases h : vect = 0x20 ∨ vect = 0x23
    · rw [Instr.condReg_trap_of_char spare h]; exact execTrap_setsCond h
    · rw [Instr.condReg_trap_of_not_char spare h]; exact execTrap_ignoresCond h

/-- COND after any instruction that answers a next state. -/
theorem exec_cond {i : Instr} {s t : State} (h : exec i s = .next t) :
    t.cond = i.condReg.elim s.cond (fun r => flagFor (t.reg r)) := by
  by_cases hbr : ∃ nzp off, i = .br nzp off
  · obtain ⟨nzp, off, rfl⟩ := hbr
    rw [exec_br] at h
    cases h
    rfl
  · have huse := exec_condUse i fun nzp off hi => hbr ⟨nzp, off, hi⟩
    cases hd : i.condReg with
    | none => rw [hd] at huse; exact huse.cond_eq h
    | some r => rw [hd] at huse; exact huse.written s t h

/-- What any instruction but BR answers with another COND before it. -/
theorem exec_setCond {i : Instr} (hbr : ∀ nzp off, i ≠ .br nzp off) (s : State) (c : Word) :
    exec i (s.setCond c) = i.condReg.elim (Result.setCond c (exec i s)) (fun _ => exec i s) := by
  have huse := exec_condUse i hbr
  cases hd : i.condReg with
  | none => rw [hd] at huse; exact huse s c
  | some r => rw [hd] at huse; exact huse.unread s c

/-- Settles O46, clause by clause: `exec_cond`, `exec_br` and `exec_setCond`. -/
theorem onlyListedInstructionsWriteAndReadCond : Obligations.OnlyListedInstructionsWriteAndReadCond := by
  refine ⟨fun i s t h => ?written, exec_br, fun i s c hbr => ?read⟩
  case written =>
    have hc := exec_cond h
    cases i with
    | trap spare vect =>
      by_cases hv : vect = 0x20 ∨ vect = 0x23
      · rw [Instr.condReg_trap_of_char spare hv] at hc
        exact hc.trans (if_pos hv).symm
      · rw [Instr.condReg_trap_of_not_char spare hv] at hc
        exact hc.trans (if_neg hv).symm
    | _ => exact hc
  case read =>
    have hne := exec_ne_refused i s
    have hrun : exec i { s with cond := c } = _ := exec_setCond hbr s c
    rw [hrun]
    cases hr : exec i s with
    | refused p => exact absurd hr (hne p)
    | fault f => cases i.condReg <;> rfl
    | next t =>
      cases i with
      | br nzp off => exact absurd rfl (hbr nzp off)
      | trap spare vect =>
        by_cases hv : vect = 0x20 ∨ vect = 0x23
        · rw [Instr.condReg_trap_of_char spare hv]
          exact ⟨rfl, (if_pos hv).mpr rfl⟩
        · rw [Instr.condReg_trap_of_not_char spare hv]
          exact ⟨rfl, (if_neg hv).mpr rfl⟩
      | _ => exact ⟨rfl, rfl⟩

end Machine
end Sys2Proof
end

section
/-! PROOFS. The two memory primitives: what a read answers and leaves (R42), and what a write changes (R43). -/

namespace Sys2Proof.Machine

/-- Settles O7: 0xFE00 is `kbsr`, and `memRead` polls there alone. -/
theorem readReturnsTheStoredWord : Obligations.ReadReturnsTheStoredWord :=
  fun s => ⟨State.memRead_kbsr s, fun _ ha => State.memRead_of_ne s ha⟩

theorem State.memWrite_sameRegs (s : State) (a v : Word) : s.SameRegs (s.memWrite a v) :=
  State.reg_memWrite s a v

theorem State.memWrite_quiet (s : State) (a v : Word) : s.Quiet (s.memWrite a v) where
  running := State.memWrite_running s a v
  faultLatch := State.memWrite_faultLatch s a v
  output := State.memWrite_output s a v
  segments := State.memWrite_segments s a v
  params := State.memWrite_params s a v

/-- Settles O8: read after write in the word memory (`State.peek_memWrite`), and a frame that holds field by field. -/
theorem writeIsAPlainStore : Obligations.WriteIsAPlainStore :=
  fun s a v => ⟨fun b => State.peek_memWrite s a b v, State.memWrite_sameRegs s a v, State.memWrite_pc s a v,
    State.memWrite_cond s a v, State.memWrite_inputQueue s a v, State.memWrite_quiet s a v⟩

end Sys2Proof.Machine
end

section
/-! PROOFS. The operate instructions ADD, AND and NOT: their words (R62, R65) and their effect (R100 to R104). -/

namespace Sys2Proof

/-! ### Words: the opcode field, then bit 5 for ADD and AND -/

theorem decode_of_opcode_add {w : Word} (hop : w.extractLsb' 12 4 = 1#4) :
    decode w = if w.getLsbD 5 then .addImm (regField w 9) (regField w 6) (w.extractLsb' 0 5)
      else .addReg (regField w 9) (regField w 6) (w.extractLsb' 3 2) (regField w 0) := by
  rw [decode, hop]; rfl

theorem decode_of_opcode_and {w : Word} (hop : w.extractLsb' 12 4 = 5#4) :
    decode w = if w.getLsbD 5 then .andImm (regField w 9) (regField w 6) (w.extractLsb' 0 5)
      else .andReg (regField w 9) (regField w 6) (w.extractLsb' 3 2) (regField w 0) := by
  rw [decode, hop]; rfl

theorem decode_of_opcode_not {w : Word} (hop : w.extractLsb' 12 4 = 9#4) :
    decode w = .not (regField w 9) (regField w 6) (w.extractLsb' 0 6) := by
  rw [decode, hop]; rfl

namespace Machine

/-! ### Results: a register written and COND set from it (R29) -/

theorem State.Quiet.refl (s : State) : s.Quiet s := ⟨rfl, rfl, rfl, rfl, rfl⟩

/-- A result written in the state `m` that the reads of an instruction left: all else is `m`'s. -/
theorem State.resultIn_writeResult_of_reads {s m : State} (hregs : s.SameRegs m) (hpc : m.pc = s.pc)
    (hquiet : s.Quiet m) (dr : Reg) (v : Word) : s.ResultIn m (m.writeResult dr v) dr v where
  result := by rw [State.reg_writeResult, if_pos rfl]
  cond := by rw [State.writeResult_cond, condOf_eq_flagFor]
  regs r hr := by rw [State.reg_writeResult, if_neg hr, hregs r]
  pc := by rw [State.writeResult_pc, hpc]
  memory := State.peek_writeResult m dr v
  queue := State.writeResult_inputQueue m dr v
  quiet := ⟨hquiet.running, hquiet.faultLatch, hquiet.output, hquiet.segments, hquiet.params⟩

/-- A result written with no read before it. -/
theorem State.resultIn_writeResult (s : State) (dr : Reg) (v : Word) : s.ResultIn s (s.writeResult dr v) dr v :=
  State.resultIn_writeResult_of_reads (fun _ => rfl) rfl (State.Quiet.refl s) dr v

/-- R13: the sign extension of a field is its signed value modulo 2^16. -/
theorem sextField_eq_ofInt_toInt {n : Nat} (v : BitVec n) : sextField v = BitVec.ofInt 16 v.toInt := rfl

/-- R104: the complement of all 16 bits is XOR with 0xFFFF. -/
theorem not_eq_ffff_xor (v : Word) : ~~~v = 0xFFFF ^^^ v := BitVec.not_def

/-! ### Effects: one equation per instruction -/

theorem exec_addReg (dr sr1 sr2 : Reg) (spare : BitVec 2) (s : State) :
    exec (.addReg dr sr1 spare sr2) s = .next (s.writeResult dr (s.reg sr1 + s.reg sr2)) := rfl

theorem exec_addImm (dr sr1 : Reg) (imm : BitVec 5) (s : State) :
    exec (.addImm dr sr1 imm) s = .next (s.writeResult dr (s.reg sr1 + BitVec.ofInt 16 imm.toInt)) := by
  rw [← sextField_eq_ofInt_toInt]; rfl

theorem exec_andReg (dr sr1 sr2 : Reg) (spare : BitVec 2) (s : State) :
    exec (.andReg dr sr1 spare sr2) s = .next (s.writeResult dr (s.reg sr1 &&& s.reg sr2)) := rfl

theorem exec_andImm (dr sr1 : Reg) (imm : BitVec 5) (s : State) :
    exec (.andImm dr sr1 imm) s = .next (s.writeResult dr (s.reg sr1 &&& BitVec.ofInt 16 imm.toInt)) := by
  rw [← sextField_eq_ofInt_toInt]; rfl

theorem exec_not (dr sr : Reg) (spare : BitVec 6) (s : State) :
    exec (.not dr sr spare) s = .next (s.writeResult dr (0xFFFF ^^^ s.reg sr)) := by
  rw [← not_eq_ffff_xor]; rfl

/-! ### The obligations -/

/-- Settles O10: opcode 1 with bit 5 clear, and one result with no read before it. -/
theorem addRegister : Obligations.AddRegister := by
  refine ⟨fun w hop h5 => ?words, fun dr sr1 sr2 spare s => ?effect⟩
  case words => rw [decode_of_opcode_add hop, h5]; rfl
  case effect => exact ⟨_, exec_addReg dr sr1 sr2 spare s, s.resultIn_writeResult dr _⟩

/-- Settles O11: opcode 1 with bit 5 set, and one result with no read before it. -/
theorem addImmediate : Obligations.AddImmediate := by
  refine ⟨fun w hop h5 => ?words, fun dr sr1 imm s => ?effect⟩
  case words => rw [decode_of_opcode_add hop, h5]; rfl
  case effect => exact ⟨_, exec_addImm dr sr1 imm s, s.resultIn_writeResult dr _⟩

/-- Settles O12: opcode 5 with bit 5 clear, and one result with no read before it. -/
theorem andRegister : Obligations.AndRegister := by
  refine ⟨fun w hop h5 => ?words, fun dr sr1 sr2 spare s => ?effect⟩
  case words => rw [decode_of_opcode_and hop, h5]; rfl
  case effect => exact ⟨_, exec_andReg dr sr1 sr2 spare s, s.resultIn_writeResult dr _⟩

/-- Settles O13: opcode 5 with bit 5 set, and one result with no read before it. -/
theorem andImmediate : Obligations.AndImmediate := by
  refine ⟨fun w hop h5 => ?words, fun dr sr1 imm s => ?effect⟩
  case words => rw [decode_of_opcode_and hop, h5]; rfl
  case effect => exact ⟨_, exec_andImm dr sr1 imm s, s.resultIn_writeResult dr _⟩

/-- Settles O14: opcode 9, and one result with no read before it. -/
theorem notComplement : Obligations.NotComplement :=
  ⟨fun _ hop => decode_of_opcode_not hop,
    fun dr sr spare s => ⟨_, exec_not dr sr spare s, s.resultIn_writeResult dr _⟩⟩

end Machine
end Sys2Proof
end

section
/-! PROOFS. The data movement instructions LD, LDI, LDR, LEA, ST, STI and STR: their words (R62) and their effect
(R110 to R116).

A read may poll, so an instruction's effect is stated from the state its reads left. `State.LeftByReads` collects what
reads keep; one read has it, it composes, and the frames of a load and of a store both follow from it. -/

namespace Sys2Proof

/-! ### Words: the opcode field alone decides -/

theorem decode_of_opcode_ld {w : Word} (hop : w.extractLsb' 12 4 = 2#4) :
    decode w = .ld (regField w 9) (w.extractLsb' 0 9) := by
  rw [decode, hop]; rfl

theorem decode_of_opcode_ldi {w : Word} (hop : w.extractLsb' 12 4 = 10#4) :
    decode w = .ldi (regField w 9) (w.extractLsb' 0 9) := by
  rw [decode, hop]; rfl

theorem decode_of_opcode_ldr {w : Word} (hop : w.extractLsb' 12 4 = 6#4) :
    decode w = .ldr (regField w 9) (regField w 6) (w.extractLsb' 0 6) := by
  rw [decode, hop]; rfl

theorem decode_of_opcode_lea {w : Word} (hop : w.extractLsb' 12 4 = 14#4) :
    decode w = .lea (regField w 9) (w.extractLsb' 0 9) := by
  rw [decode, hop]; rfl

theorem decode_of_opcode_st {w : Word} (hop : w.extractLsb' 12 4 = 3#4) :
    decode w = .st (regField w 9) (w.extractLsb' 0 9) := by
  rw [decode, hop]; rfl

theorem decode_of_opcode_sti {w : Word} (hop : w.extractLsb' 12 4 = 11#4) :
    decode w = .sti (regField w 9) (w.extractLsb' 0 9) := by
  rw [decode, hop]; rfl

theorem decode_of_opcode_str {w : Word} (hop : w.extractLsb' 12 4 = 7#4) :
    decode w = .str (regField w 9) (regField w 6) (w.extractLsb' 0 6) := by
  rw [decode, hop]; rfl

namespace Machine

/-! ### Effective addresses, by the signed value of the offset -/

theorem State.pcRel9_eq (s : State) (off : BitVec 9) : s.pcRel9 off = s.pc + BitVec.ofInt 16 off.toInt := by
  rw [State.pcRel9, sextField_eq_ofInt_toInt]

theorem State.baseOff_eq (s : State) (base : Reg) (off : BitVec 6) :
    s.baseOff base off = s.reg base + BitVec.ofInt 16 off.toInt := by
  rw [State.baseOff, sextField_eq_ofInt_toInt]

/-! ### What the reads of an instruction keep -/

/-- From `s` to `m` nothing changed but what a read may change: memory and the input queue (R42, R47). -/
structure State.LeftByReads (s m : State) : Prop where
  regs : s.SameRegs m
  cond : m.cond = s.cond
  pc : m.pc = s.pc
  quiet : s.Quiet m

theorem State.LeftByReads.refl (s : State) : s.LeftByReads s := ⟨fun _ => rfl, rfl, rfl, State.Quiet.refl s⟩

theorem State.Quiet.trans {s m t : State} (h₁ : s.Quiet m) (h₂ : m.Quiet t) : s.Quiet t where
  running := h₂.running.trans h₁.running
  faultLatch := h₂.faultLatch.trans h₁.faultLatch
  output := h₂.output.trans h₁.output
  segments := h₂.segments.trans h₁.segments
  params := h₂.params.trans h₁.params

theorem State.LeftByReads.trans {s m t : State} (h₁ : s.LeftByReads m) (h₂ : m.LeftByReads t) : s.LeftByReads t where
  regs r := (h₂.regs r).trans (h₁.regs r)
  cond := h₂.cond.trans h₁.cond
  pc := h₂.pc.trans h₁.pc
  quiet := h₁.quiet.trans h₂.quiet

theorem State.memRead_quiet (s : State) (a : Word) : s.Quiet (s.memRead a).2 where
  running := State.memRead_running s a
  faultLatch := State.memRead_faultLatch s a
  output := State.memRead_output s a
  segments := State.memRead_segments s a
  params := State.memRead_params s a

theorem State.leftByReads_memRead (s : State) (a : Word) : s.LeftByReads (s.memRead a).2 where
  regs := State.memRead_reg s a
  cond := State.memRead_cond s a
  pc := State.memRead_pc s a
  quiet := State.memRead_quiet s a

theorem State.leftByReads_of_memRead_eq {s m : State} {a v : Word} (h : s.memRead a = (v, m)) : s.LeftByReads m := by
  have hread := s.leftByReads_memRead a
  rwa [h] at hread

/-! ### The frame of a load and of a store, after the instruction's reads -/

theorem State.LeftByReads.resultIn {s m : State} (h : s.LeftByReads m) (dr : Reg) (v : Word) :
    s.ResultIn m (m.writeResult dr v) dr v :=
  State.resultIn_writeResult_of_reads h.regs h.pc h.quiet dr v

theorem State.LeftByReads.storedAt {s m : State} (h : s.LeftByReads m) (ea v : Word) :
    s.StoredAt m (m.memWrite ea v) ea v where
  memory a := State.peek_memWrite m ea a v
  regs r := (State.memWrite_sameRegs m ea v r).trans (h.regs r)
  cond := (State.memWrite_cond m ea v).trans h.cond
  pc := (State.memWrite_pc m ea v).trans h.pc
  queue := State.memWrite_inputQueue m ea v
  quiet := h.quiet.trans (State.memWrite_quiet m ea v)

/-! ### Effects: one equation per instruction -/

theorem exec_ld (dr : Reg) (off : BitVec 9) (s : State) : exec (.ld dr off) s =
    .next ((s.memRead (s.pc + BitVec.ofInt 16 off.toInt)).2.writeResult dr
      (s.memRead (s.pc + BitVec.ofInt 16 off.toInt)).1) := by
  rw [← State.pcRel9_eq]; rfl

theorem exec_ldi {s m₁ m₂ : State} {off : BitVec 9} {ea v : Word}
    (hptr : s.memRead (s.pc + BitVec.ofInt 16 off.toInt) = (ea, m₁)) (hdata : m₁.memRead ea = (v, m₂)) (dr : Reg) :
    exec (.ldi dr off) s = .next (m₂.writeResult dr v) := by
  rw [← State.pcRel9_eq] at hptr
  rw [exec, execLdi, hptr, hdata]

theorem exec_ldr (dr base : Reg) (off : BitVec 6) (s : State) : exec (.ldr dr base off) s =
    .next ((s.memRead (s.reg base + BitVec.ofInt 16 off.toInt)).2.writeResult dr
      (s.memRead (s.reg base + BitVec.ofInt 16 off.toInt)).1) := by
  rw [← State.baseOff_eq]; rfl

theorem exec_lea (dr : Reg) (off : BitVec 9) (s : State) :
    exec (.lea dr off) s = .next (s.writeResult dr (s.pc + BitVec.ofInt 16 off.toInt)) := by
  rw [← State.pcRel9_eq]; rfl

theorem exec_st (sr : Reg) (off : BitVec 9) (s : State) :
    exec (.st sr off) s = .next (s.memWrite (s.pc + BitVec.ofInt 16 off.toInt) (s.reg sr)) := by
  rw [← State.pcRel9_eq]; rfl

/-- SR is read after the pointer, and the pointer read keeps it (R115). -/
theorem exec_sti {s m : State} {off : BitVec 9} {ea : Word}
    (hptr : s.memRead (s.pc + BitVec.ofInt 16 off.toInt) = (ea, m)) (sr : Reg) :
    exec (.sti sr off) s = .next (m.memWrite ea (s.reg sr)) := by
  have hsr : m.reg sr = s.reg sr := (State.leftByReads_of_memRead_eq hptr).regs sr
  rw [← State.pcRel9_eq] at hptr
  rw [exec, execSti, hptr, hsr]

theorem exec_str (sr base : Reg) (off : BitVec 6) (s : State) :
    exec (.str sr base off) s = .next (s.memWrite (s.reg base + BitVec.ofInt 16 off.toInt) (s.reg sr)) := by
  rw [← State.baseOff_eq]; rfl

/-! ### The obligations -/

/-- Settles O15: opcode 2, and one result in the state the read left. -/
theorem loadPcRelative : Obligations.LoadPcRelative :=
  ⟨fun _ hop => decode_of_opcode_ld hop,
    fun dr off s => ⟨_, exec_ld dr off s, (s.leftByReads_memRead _).resultIn dr _⟩⟩

/-- Settles O16: opcode 10, and one result in the state the two reads left, one after the other. -/
theorem loadIndirect : Obligations.LoadIndirect := by
  refine ⟨fun w hop => decode_of_opcode_ldi hop, fun dr off s m₁ m₂ ea v hptr hdata => ?effect⟩
  have hreads : s.LeftByReads m₂ :=
    (State.leftByReads_of_memRead_eq hptr).trans (State.leftByReads_of_memRead_eq hdata)
  exact ⟨_, exec_ldi hptr hdata dr, hreads.resultIn dr v⟩

/-- Settles O17: opcode 6, and one result in the state the read left. -/
theorem loadBaseOffset : Obligations.LoadBaseOffset :=
  ⟨fun _ hop => decode_of_opcode_ldr hop,
    fun dr base off s => ⟨_, exec_ldr dr base off s, (s.leftByReads_memRead _).resultIn dr _⟩⟩

/-- Settles O18: opcode 14, and one result with no read before it. -/
theorem loadEffectiveAddress : Obligations.LoadEffectiveAddress :=
  ⟨fun _ hop => decode_of_opcode_lea hop,
    fun dr off s => ⟨_, exec_lea dr off s, s.resultIn_writeResult dr _⟩⟩

/-- Settles O19: opcode 3, and one plain store with no read before it. -/
theorem storePcRelative : Obligations.StorePcRelative :=
  ⟨fun _ hop => decode_of_opcode_st hop,
    fun sr off s => ⟨_, exec_st sr off s, (State.LeftByReads.refl s).storedAt _ _⟩⟩

/-- Settles O20: opcode 11, and one plain store in the state the pointer read left. -/
theorem storeIndirect : Obligations.StoreIndirect := by
  refine ⟨fun w hop => decode_of_opcode_sti hop, fun sr off s m ea hptr => ?effect⟩
  exact ⟨_, exec_sti hptr sr, (State.leftByReads_of_memRead_eq hptr).storedAt ea _⟩

/-- Settles O21: opcode 7, and one plain store with no read before it. -/
theorem storeBaseOffset : Obligations.StoreBaseOffset :=
  ⟨fun _ hop => decode_of_opcode_str hop,
    fun sr base off s => ⟨_, exec_str sr base off s, (State.LeftByReads.refl s).storedAt _ _⟩⟩

end Machine
end Sys2Proof
end

section
/-! PROOFS. The control transfers BR, JMP and JSR: their words (R62, R71) and their effect (R130, R131, R133).

No branch or jump reads memory or writes COND: each is an update of PC, after the link write in JSR, so two frames serve
all of them. -/

namespace Sys2Proof

/-! ### Words: the opcode field, then bit 11 for opcode 4 -/

theorem decode_of_opcode_br {w : Word} (hop : w.extractLsb' 12 4 = 0#4) :
    decode w = .br (w.extractLsb' 9 3) (w.extractLsb' 0 9) := by
  rw [decode, hop]; rfl

theorem decode_of_opcode_jmp {w : Word} (hop : w.extractLsb' 12 4 = 12#4) :
    decode w = .jmp (w.extractLsb' 9 3) (regField w 6) (w.extractLsb' 0 6) := by
  rw [decode, hop]; rfl

theorem decode_of_opcode_jsr {w : Word} (hop : w.extractLsb' 12 4 = 4#4) :
    decode w = if w.getLsbD 11 then .jsr (w.extractLsb' 0 11)
      else .jsrr (w.extractLsb' 9 2) (regField w 6) (w.extractLsb' 0 6) := by
  rw [decode, hop]; rfl

namespace Machine

/-! ### Frames: a PC write, alone or after the link write -/

theorem State.setPc_quiet (s : State) (v : Word) : s.Quiet (s.setPc v) where
  running := State.setPc_running s v
  faultLatch := State.setPc_faultLatch s v
  output := State.setPc_output s v
  segments := State.setPc_segments s v
  params := State.setPc_params s v

theorem State.onlyPc_setPc (s : State) (v : Word) : s.OnlyPc (s.setPc v) where
  regs := State.reg_setPc s v
  cond := State.setPc_cond s v
  memory := State.peek_setPc s v
  queue := State.setPc_inputQueue s v
  quiet := State.setPc_quiet s v

theorem State.link_quiet (s : State) : s.Quiet s.link where
  running := State.link_running s
  faultLatch := State.link_faultLatch s
  output := State.link_output s
  segments := State.link_segments s
  params := State.link_params s

/-- The link write, then a change of PC alone. -/
theorem State.OnlyPc.onlyLinkAndPc {s t : State} (h : s.link.OnlyPc t) : s.OnlyLinkAndPc t where
  link := by rw [h.regs .r7, State.reg_link, if_pos rfl]
  regs r hr := by rw [h.regs r, State.reg_link, if_neg hr]
  cond := h.cond.trans (State.link_cond s)
  memory a := (h.memory a).trans (State.peek_link s a)
  queue := h.queue.trans (State.link_inputQueue s)
  quiet := (State.link_quiet s).trans h.quiet

/-! ### Effects: one equation per instruction, and the two cases of BR -/

theorem State.pcRel11_eq (s : State) (off : BitVec 11) : s.pcRel11 off = s.pc + BitVec.ofInt 16 off.toInt := by
  rw [State.pcRel11, sextField_eq_ofInt_toInt]

theorem exec_br_of_taken {nzp : BitVec 3} {s : State} (h : nzp.setWidth 16 &&& s.cond ≠ 0) (off : BitVec 9) :
    exec (.br nzp off) s = .next (s.setPc (s.pc + BitVec.ofInt 16 off.toInt)) := by
  rw [exec_br, if_pos h]; rfl

theorem exec_br_of_not_taken {nzp : BitVec 3} {s : State} (h : nzp.setWidth 16 &&& s.cond = 0) (off : BitVec 9) :
    exec (.br nzp off) s = .next s := by
  rw [exec_br, if_neg (not_not_intro h)]

theorem exec_jmp (spareHi : BitVec 3) (base : Reg) (spareLo : BitVec 6) (s : State) :
    exec (.jmp spareHi base spareLo) s = .next (s.setPc (s.reg base)) := rfl

theorem exec_jsr (off : BitVec 11) (s : State) :
    exec (.jsr off) s = .next (s.link.setPc (s.pc + BitVec.ofInt 16 off.toInt)) := by
  rw [← State.pcRel11_eq]; rfl

/-- The values of R28 share a bit with nzp = 111. -/
theorem allFlags_and_cond_ne_zero {c : Word} (h : c = 1 ∨ c = 2 ∨ c = 4) : (7 : BitVec 3).setWidth 16 &&& c ≠ 0 := by
  rcases h with rfl | rfl | rfl <;> decide

/-! ### The obligations -/

/-- Settles O22: opcode 0, and `exec_br`; nzp = 000 is never taken, and nzp = 111 is taken under every value of R28. -/
theorem branchOnCondition : Obligations.BranchOnCondition := by
  refine ⟨fun w hop => decode_of_opcode_br hop, fun nzp off s => ?effect, fun off s => ?never, fun off s hc => ?always⟩
  case effect => exact ⟨_, exec_br nzp off s, s.onlyPc_setPc _, rfl⟩
  case never => exact exec_br_of_not_taken BitVec.zero_and off
  case always => exact ⟨_, exec_br_of_taken (allFlags_and_cond_ne_zero hc) off, State.setPc_pc s _⟩

/-- Settles O23: opcode 12, and one PC write. -/
theorem jumpToBase : Obligations.JumpToBase :=
  ⟨fun _ hop => decode_of_opcode_jmp hop,
    fun hi base lo s => ⟨_, exec_jmp hi base lo s, s.onlyPc_setPc _, State.setPc_pc s _⟩⟩

/-- Settles O24: opcode 4 with bit 11 set, and one PC write after the link write. -/
theorem jumpToSubroutine : Obligations.JumpToSubroutine := by
  refine ⟨fun w hop h11 => ?words, fun off s => ?effect⟩
  case words => rw [decode_of_opcode_jsr hop, if_pos h11]
  case effect => exact ⟨_, exec_jsr off s, (s.link.onlyPc_setPc _).onlyLinkAndPc, State.setPc_pc s.link _⟩

end Machine
end Sys2Proof
end

section
/-! PROOFS. The decoder and the encoder are inverse to each other (R62, R73), and the bits an instruction ignores (R72).

An encoding puts each field at its own place, so reading a field back needs two facts about `bitsAt`: the bits of the
field itself come back, and any other field has zeros there. The other way round, two neighbouring fields of one word,
each left in its place, are one wider field of it; joining all of them gives the word. -/

namespace Sys2Proof

/-! ### Words: the opcodes whose field alone decides -/

theorem decode_of_opcode_trap {w : Word} (hop : w.extractLsb' 12 4 = 15#4) :
    decode w = .trap (w.extractLsb' 8 4) (w.extractLsb' 0 8) := by
  rw [decode, hop]; rfl

theorem decode_of_opcode_rti {w : Word} (hop : w.extractLsb' 12 4 = 8#4) : decode w = .rti (w.extractLsb' 0 12) := by
  rw [decode, hop]; rfl

theorem decode_of_opcode_reserved {w : Word} (hop : w.extractLsb' 12 4 = 13#4) :
    decode w = .reserved (w.extractLsb' 0 12) := by
  rw [decode, hop]; rfl

/-! ### Fields read back from an encoding -/

theorem getElem_bitsAt {m : Nat} (v : BitVec m) (lo : Nat) {j : Nat} (hj : j < 16) :
    (bitsAt v lo)[j] = (decide (lo ≤ j) && v.getLsbD (j - lo)) := by
  rw [bitsAt, BitVec.getElem_shiftLeft]
  by_cases hlo : j < lo
  · simp [hlo]
  · simp [hlo, not_lt.1 hlo]

@[simp] theorem extractLsb'_bitsAt_same {m : Nat} (v : BitVec m) {lo : Nat} (h : lo + m ≤ 16) :
    (bitsAt v lo).extractLsb' lo m = v := by
  refine BitVec.eq_of_getElem_eq fun j hj => ?_
  rw [BitVec.getElem_extractLsb', BitVec.getLsbD_eq_getElem (show lo + j < 16 by omega), getElem_bitsAt]
  simp [hj]

@[simp] theorem extractLsb'_bitsAt_disjoint {m n : Nat} (v : BitVec m) {lo lo' : Nat}
    (h : lo + m ≤ lo' ∨ lo' + n ≤ lo) : (bitsAt v lo).extractLsb' lo' n = 0#n := by
  refine BitVec.eq_of_getElem_eq fun j hj => ?_
  rw [BitVec.getElem_extractLsb', BitVec.getElem_zero]
  by_cases h16 : lo' + j < 16
  · rw [BitVec.getLsbD_eq_getElem h16, getElem_bitsAt]
    rcases h with h | h
    · simp [BitVec.getLsbD_of_ge v (lo' + j - lo) (by omega)]
    · simp [show ¬ lo ≤ lo' + j by omega]
  · exact BitVec.getLsbD_of_ge _ _ (by omega)

/-- The opcode an instruction's word has (R61). -/
def Instr.opcode : Instr → Opcode
  | .br _ _ => .br | .addReg _ _ _ _ | .addImm _ _ _ => .add | .ld _ _ => .ld | .st _ _ => .st
  | .jsrr _ _ _ | .jsr _ => .jsr | .andReg _ _ _ _ | .andImm _ _ _ => .and | .ldr _ _ _ => .ldr | .str _ _ _ => .str
  | .rti _ => .rti | .not _ _ _ => .not | .ldi _ _ => .ldi | .sti _ _ => .sti | .jmp _ _ _ => .jmp
  | .reserved _ => .reserved | .lea _ _ => .lea | .trap _ _ => .trap

theorem encode_opcode (i : Instr) : (encode i).extractLsb' 12 4 = bitsOfOpcode i.opcode := by
  cases i <;> simp [encode, Instr.opcode, opcodeAt, regAt, BitVec.extractLsb'_or]

/-- Settles O1: `encode_opcode` selects the decoder's case, the mode bit the form, and each field is read back whole. -/
theorem decodeAfterEncodeIsIdentity : Obligations.DecodeAfterEncodeIsIdentity := by
  intro i
  rw [decode, encode_opcode, opcodeOfBits_bitsOfOpcode]
  cases i <;> simp [Instr.opcode, encode, opcodeAt, regAt, regField, BitVec.extractLsb'_or, getElem_bitsAt]

/-! ### A word put together from its fields -/

/-- The field of `w` from bit `lo` on, `n` bits wide, left in its place. -/
def fieldAt (w : Word) (lo n : Nat) : Word := bitsAt (w.extractLsb' lo n) lo

theorem bitsAt_extractLsb' (w : Word) (lo n : Nat) : bitsAt (w.extractLsb' lo n) lo = fieldAt w lo n := rfl

theorem getElem_fieldAt (w : Word) (lo n : Nat) {j : Nat} (hj : j < 16) :
    (fieldAt w lo n)[j] = (decide (lo ≤ j) && decide (j < lo + n) && w[j]) := by
  rw [fieldAt, getElem_bitsAt, BitVec.getLsbD_extractLsb']
  by_cases hlo : lo ≤ j
  · simp [hlo, hj, show j - lo < n ↔ j < lo + n by omega]
  · simp [hlo]

theorem fieldAt_whole (w : Word) : fieldAt w 0 16 = w :=
  BitVec.eq_of_getElem_eq fun j hj => by simp [getElem_fieldAt, hj]

/-- Two neighbouring fields are one. -/
theorem fieldAt_or (w : Word) {hi lo m n : Nat} (h : hi = lo + m) :
    fieldAt w hi n ||| fieldAt w lo m = fieldAt w lo (m + n) := by
  refine BitVec.eq_of_getElem_eq fun j hj => ?_
  rw [BitVec.getElem_or, getElem_fieldAt, getElem_fieldAt, getElem_fieldAt]
  cases w[j] with
  | false => simp
  | true => simp only [Bool.and_true, ← Bool.decide_and, ← Bool.decide_or, decide_eq_decide]; omega

/-- Two fields with one clear bit between them are one. -/
theorem fieldAt_or_of_clear {w : Word} {hi lo m n : Nat} (h : hi = lo + m + 1) (hclear : w.getLsbD (lo + m) = false) :
    fieldAt w hi n ||| fieldAt w lo m = fieldAt w lo (m + 1 + n) := by
  refine BitVec.eq_of_getElem_eq fun j hj => ?_
  rw [BitVec.getElem_or, getElem_fieldAt, getElem_fieldAt, getElem_fieldAt]
  cases hw : w[j] with
  | false => simp
  | true =>
    have hne : j ≠ lo + m := by
      rintro rfl
      rw [BitVec.getLsbD_eq_getElem hj, hw] at hclear
      exact Bool.noConfusion hclear
    simp only [Bool.and_true, ← Bool.decide_and, ← Bool.decide_or, decide_eq_decide]
    omega

theorem fieldAt_one_of_set {w : Word} {lo : Nat} (h : w.getLsbD lo = true) : fieldAt w lo 1 = bitsAt 1#1 lo := by
  have hbit : w.extractLsb' lo 1 = 1#1 := BitVec.eq_of_getLsbD_eq fun j hj => by
    obtain rfl : j = 0 := by omega
    simpa using h
  rw [fieldAt, hbit]

theorem opcodeAt_opcodeOfBits (w : Word) : opcodeAt (opcodeOfBits (w.extractLsb' 12 4)) = fieldAt w 12 4 := by
  rw [opcodeAt, bitsOfOpcode_opcodeOfBits, fieldAt]

theorem regAt_regField (w : Word) (lo : Nat) : regAt (regField w lo) lo = fieldAt w lo 3 := by
  rw [regAt, regField, bitsOfReg_regOfBits, fieldAt]


/-- Settles O2: under each opcode, and each mode bit, the fields of the word are joined from the top one down. -/
theorem encodeAfterDecodeIsIdentity : Obligations.EncodeAfterDecodeIsIdentity := by
  intro w
  have hop := opcodeAt_opcodeOfBits w
  unfold decode
  generalize opcodeOfBits (w.extractLsb' 12 4) = o at hop ⊢
  cases o with
  | add | and =>
    cases h5 : w.getLsbD 5 with
    | true => simp [encode, hop, regAt_regField, ← fieldAt_one_of_set h5, bitsAt_extractLsb', fieldAt_or, fieldAt_whole]
    | false =>
      have hgap {n} : fieldAt w 6 n ||| fieldAt w 3 2 = fieldAt w 3 (3 + n) := fieldAt_or_of_clear rfl h5
      simp [encode, hop, regAt_regField, bitsAt_extractLsb', fieldAt_or, hgap, fieldAt_whole]
  | jsr =>
    cases h11 : w.getLsbD 11 with
    | true => simp [encode, hop, ← fieldAt_one_of_set h11, bitsAt_extractLsb', fieldAt_or, fieldAt_whole]
    | false =>
      have hgap {n} : fieldAt w 12 n ||| fieldAt w 9 2 = fieldAt w 9 (3 + n) := fieldAt_or_of_clear rfl h11
      simp [encode, hop, regAt_regField, bitsAt_extractLsb', fieldAt_or, hgap, fieldAt_whole]
  | _ => simp [encode, hop, regAt_regField, bitsAt_extractLsb', fieldAt_or, fieldAt_whole]

/-- Settles O3: one register field a register, and one word a row of the spec's tables. -/
theorem specWordsDecodeAsWritten : Obligations.SpecWordsDecodeAsWritten := by
  unfold Obligations.SpecWordsDecodeAsWritten
  decide

/-! ### What a decoded instruction says of its word -/

theorem opcode_of_decode_eq {w : Word} {i : Instr} (h : decode w = i) : w.extractLsb' 12 4 = bitsOfOpcode i.opcode := by
  rw [← encode_opcode, ← h, encodeAfterDecodeIsIdentity w]

theorem vector_of_decode_eq {w : Word} {spare : BitVec 4} {vect : BitVec 8} (h : decode w = .trap spare vect) :
    w.extractLsb' 0 8 = vect := by
  have hw := encodeAfterDecodeIsIdentity w
  rw [h] at hw
  rw [← hw]
  simp [encode, opcodeAt, BitVec.extractLsb'_or]

/-! ### Ignored bits -/

namespace Machine

/-- Words that agree on a field agree on the register named inside it. -/
theorem regField_eq_of_extractLsb'_eq {w v : Word} {lo n lo' : Nat} (h : w.extractLsb' lo n = v.extractLsb' lo n)
    (hlo : lo ≤ lo') (hhi : lo' + 3 ≤ lo + n) : regField w lo' = regField v lo' := by
  have hin : w.extractLsb' lo' 3 = v.extractLsb' lo' 3 := by
    refine BitVec.eq_of_getElem_eq fun j hj => ?_
    have hbit := congrArg (·.getLsbD (lo' - lo + j)) h
    rw [BitVec.getElem_extractLsb', BitVec.getElem_extractLsb']
    simpa [show lo' - lo + j < n by omega, show lo + (lo' - lo + j) = lo' + j by omega] using hbit
  rw [regField, regField, hin]

/-- Settles O4: the two words decode to instructions that differ in spare fields alone, which reach no meaning. -/
theorem ignoredBitsChangeNothing : Obligations.IgnoredBitsChangeNothing := by
  intro w v s hwv hcases
  obtain ⟨hop, hw5, hv5, hhi, hlo⟩ | ⟨hop, hregs⟩ | ⟨hop, hbase⟩ | ⟨hop, hw11, hv11, hbase⟩ |
    ⟨hop, hvect⟩ | hop | hop := hcases
  · have hdr := regField_eq_of_extractLsb'_eq hhi (show 5 ≤ 9 by omega) (by omega)
    have hsr1 := regField_eq_of_extractLsb'_eq hhi (show 5 ≤ 6 by omega) (by omega)
    have hsr2 := regField_eq_of_extractLsb'_eq hlo (Nat.le_refl 0) (by omega)
    rcases hop with hop | hop
    · rw [decode_of_opcode_add hop, decode_of_opcode_add (hwv ▸ hop), hw5, hv5, hdr, hsr1, hsr2]; rfl
    · rw [decode_of_opcode_and hop, decode_of_opcode_and (hwv ▸ hop), hw5, hv5, hdr, hsr1, hsr2]; rfl
  · have hdr := regField_eq_of_extractLsb'_eq hregs (show 6 ≤ 9 by omega) (by omega)
    have hsr := regField_eq_of_extractLsb'_eq hregs (Nat.le_refl 6) (by omega)
    rw [decode_of_opcode_not hop, decode_of_opcode_not (hwv ▸ hop), hdr, hsr]; rfl
  · have hr := regField_eq_of_extractLsb'_eq hbase (Nat.le_refl 6) (by omega)
    rw [decode_of_opcode_jmp hop, decode_of_opcode_jmp (hwv ▸ hop), hr]; rfl
  · have hr := regField_eq_of_extractLsb'_eq hbase (Nat.le_refl 6) (by omega)
    rw [decode_of_opcode_jsr hop, decode_of_opcode_jsr (hwv ▸ hop), hw11, hv11, hr]; rfl
  · rw [decode_of_opcode_trap hop, decode_of_opcode_trap (hwv ▸ hop), hvect]; rfl
  · rw [decode_of_opcode_rti hop, decode_of_opcode_rti (hwv ▸ hop)]; rfl
  · rw [decode_of_opcode_reserved hop, decode_of_opcode_reserved (hwv ▸ hop)]; rfl

end Machine
end Sys2Proof
end

section
/-! PROOFS. What an instruction can change: the registers (R22), PC (R25), the running flag and the fault latch (R33,
R34), memory (R43, R47), and what every step keeps.

Reads, character input and output are one kind of change, `State.OnlyIo`: it touches no register, no flag and no word
but the keyboard's two. `ExecEffect` says once, for every instruction, what else it does; each rule is read off it. -/

namespace Sys2Proof.Machine

/-! ### What every step keeps, and what input and output keep beside it -/

/-- From `s` to `t` the output only grew, the queue only lost bytes at its front, nothing set the running flag, the
segment record and the parameters stayed, and memory stayed in canonical form. -/
structure State.Advances (s t : State) : Prop where
  output : s.output <+: t.output
  queue : t.inputQueue <:+ s.inputQueue
  segments : t.segments = s.segments
  params : t.params = s.params
  running : t.running = true → s.running = true
  wf : s.mem.wf → t.mem.wf

/-- From `s` to `t` there was nothing but reads, character input and output. -/
structure State.OnlyIo (s t : State) : Prop extends s.Advances t where
  regs : s.SameRegs t
  cond : t.cond = s.cond
  pc : t.pc = s.pc
  flag : t.running = s.running
  faultLatch : t.faultLatch = s.faultLatch
  memory : ∀ a : Word, a ≠ kbsr → a ≠ kbdr → t.peek a = s.peek a

theorem State.Advances.refl (s : State) : s.Advances s :=
  ⟨List.prefix_rfl, List.suffix_rfl, rfl, rfl, id, id⟩

theorem State.Advances.trans {s m t : State} (h₁ : s.Advances m) (h₂ : m.Advances t) : s.Advances t where
  output := h₁.output.trans h₂.output
  queue := h₂.queue.trans h₁.queue
  segments := h₂.segments.trans h₁.segments
  params := h₂.params.trans h₁.params
  running := h₁.running ∘ h₂.running
  wf := h₂.wf ∘ h₁.wf

theorem State.OnlyIo.refl (s : State) : s.OnlyIo s :=
  ⟨State.Advances.refl s, fun _ => rfl, rfl, rfl, rfl, rfl, fun _ _ _ => rfl⟩

theorem State.OnlyIo.trans {s m t : State} (h₁ : s.OnlyIo m) (h₂ : m.OnlyIo t) : s.OnlyIo t where
  toAdvances := h₁.toAdvances.trans h₂.toAdvances
  regs r := (h₂.regs r).trans (h₁.regs r)
  cond := h₂.cond.trans h₁.cond
  pc := h₂.pc.trans h₁.pc
  flag := h₂.flag.trans h₁.flag
  faultLatch := h₂.faultLatch.trans h₁.faultLatch
  memory a hk hd := (h₂.memory a hk hd).trans (h₁.memory a hk hd)

theorem State.onlyIo_memRead (s : State) (a : Word) : s.OnlyIo (s.memRead a).2 where
  output := by rw [State.memRead_output]
  queue := s.memRead_inputQueue_suffix a
  segments := s.memRead_segments a
  params := s.memRead_params a
  running h := by rwa [State.memRead_running] at h
  wf h := State.memRead_wf h a
  regs := s.memRead_reg a
  cond := s.memRead_cond a
  pc := s.memRead_pc a
  flag := s.memRead_running a
  faultLatch := s.memRead_faultLatch a
  memory _ hk hd := s.peek_memRead_of_ne a hk hd

theorem State.onlyIo_out (s : State) (bs : List Byte) : s.OnlyIo (s.out bs) :=
  ⟨⟨List.prefix_append s.output bs, List.suffix_rfl, rfl, rfl, id, id⟩, fun _ => rfl, rfl, rfl, rfl, rfl,
    fun _ _ _ => rfl⟩

theorem State.onlyIo_inGet {s t : State} {c : Byte} (h : s.inGet = some (c, t)) : s.OnlyIo t := by
  have hwf : s.mem.wf → t.mem.wf := fun hm => State.inGet_wf hm h
  obtain ⟨_, rest, hq, rfl⟩ | ⟨_, _, _, rfl⟩ := State.inGet_cases h
  · exact ⟨⟨List.prefix_rfl, hq ▸ List.suffix_cons c rest, rfl, rfl, id, hwf⟩, fun _ => rfl, rfl, rfl, rfl, rfl,
      fun _ _ _ => rfl⟩
  · exact ⟨⟨List.prefix_rfl, List.suffix_rfl, rfl, rfl, id, hwf⟩, fun _ => rfl, rfl, rfl, rfl, rfl,
      fun a hk _ => by rw [State.peek_memWrite, if_neg hk]⟩

theorem State.onlyIo_scan {bytes : Word → List Byte} {fuel : Nat} {a : Word} {s t : State}
    (h : scan bytes fuel a s = some t) : s.OnlyIo t :=
  scan_keeps s.OnlyIo (fun m a hm => hm.trans (m.onlyIo_memRead a)) (fun m bs hm => hm.trans (m.onlyIo_out bs))
    (State.OnlyIo.refl s) h

/-! ### The shared scan of PUTS and PUTSP (R145, R147) -/

section Scan

variable {bytes : Word → List Byte}

theorem State.scanFromR0_of_some {s t : State} (h : scan bytes s.scanFuel (s.reg .r0) s = some t) :
    s.scanFromR0 bytes = .next t := by
  rw [State.scanFromR0, h]

theorem State.scanFromR0_of_none {s : State} (h : scan bytes s.scanFuel (s.reg .r0) s = none) :
    s.scanFromR0 bytes = .fault .diverged := by
  rw [State.scanFromR0, h]

theorem State.scanFromR0_eq_next_iff {s t : State} :
    s.scanFromR0 bytes = .next t ↔ scan bytes s.scanFuel (s.reg .r0) s = some t := by
  cases h : scan bytes s.scanFuel (s.reg .r0) s with
  | none => simp [State.scanFromR0_of_none h]
  | some u => simp [State.scanFromR0_of_some h]

theorem State.scanFromR0_eq_diverged_iff {s : State} :
    s.scanFromR0 bytes = .fault .diverged ↔ scan bytes s.scanFuel (s.reg .r0) s = none := by
  cases h : scan bytes s.scanFuel (s.reg .r0) s with
  | none => simp [State.scanFromR0_of_none h]
  | some u => simp [State.scanFromR0_of_some h]

/-- PUTS and PUTSP read and output. -/
theorem State.onlyIo_scanFromR0 {s t : State} (h : s.scanFromR0 bytes = .next t) : s.OnlyIo t :=
  State.onlyIo_scan (State.scanFromR0_eq_next_iff.1 h)

end Scan

theorem exec_trap (spare : BitVec 4) (vect : BitVec 8) (s : State) : exec (.trap spare vect) s = execTrap vect s := rfl

theorem execTrap_puts (s : State) : execTrap 0x22 s = s.link.scanFromR0 putsBytes := by simp [execTrap, trapPuts]

theorem execTrap_putsp (s : State) : execTrap 0x24 s = s.link.scanFromR0 putspBytes := by simp [execTrap, trapPutsp]

/-! ### What each instruction does -/

/-- From `s`, whose link write is done, to `t`: what the service a TRAP selects does (R140, R142 to R149). -/
inductive TrapEffect (vect : BitVec 8) (s t : State) : Prop where
  | char (m : State) (c : Byte) (hv : vect = 0x20 ∨ vect = 0x23) (hio : s.OnlyIo m)
      (ht : t = m.writeResult .r0 (charWord c))
  | print (hv : vect = 0x21 ∨ vect = 0x22 ∨ vect = 0x24) (hio : s.OnlyIo t)
  | halt (hv : vect = 0x25) (ht : t = (s.out s.params.haltNotice).halt)
  | unknown (hv : vect.toNat < 0x20 ∨ 0x25 < vect.toNat)
      (ht : t = { s with faultLatch := some (.unknownTrap vect (s.pc - 1)) })

/-- From `s` to `t`: what the instruction does, up to which value a result or a store has and what reads do. -/
def ExecEffect (i : Instr) (s t : State) : Prop :=
  match i with
  | .addReg dr _ _ _ | .addImm dr _ _ | .andReg dr _ _ _ | .andImm dr _ _ | .not dr _ _ | .lea dr _ =>
    ∃ v, t = s.writeResult dr v
  | .ld dr _ | .ldi dr _ | .ldr dr _ _ => ∃ m v, s.OnlyIo m ∧ t = m.writeResult dr v
  | .st _ _ | .sti _ _ | .str _ _ _ => ∃ m a v, s.OnlyIo m ∧ t = m.memWrite a v
  | .br nzp off => t = s.setPc (if nzp.setWidth 16 &&& s.cond ≠ 0 then s.pc + BitVec.ofInt 16 off.toInt else s.pc)
  | .jmp _ base _ => t = s.setPc (s.reg base)
  | .jsr off => t = s.link.setPc (s.pc + BitVec.ofInt 16 off.toInt)
  | .jsrr _ base _ => t = s.link.setPc (if s.params.jsrrReadsBaseFirst then s.reg base else s.link.reg base)
  | .rti _ => t = { s with faultLatch := some (.illegalOpcode 8 (s.pc - 1)) }
  | .reserved _ => t = { s with faultLatch := some (.illegalOpcode 13 (s.pc - 1)) }
  | .trap _ vect => TrapEffect vect s.link t

theorem trapEffect_of_execTrap {vect : BitVec 8} {s t : State} (h : execTrap vect s = .next t) :
    TrapEffect vect s.link t := by
  obtain rfl | rfl | rfl | rfl | rfl | rfl | hu := trapVector_cases vect
  case inl =>
    replace h : trapGetc s.link = .next t := h
    unfold trapGetc at h
    split at h
    · cases h
    · next c m hget => cases h; exact .char m c (.inl rfl) (State.onlyIo_inGet hget) rfl
  case inr.inl => cases h; exact .print (.inl rfl) (s.link.onlyIo_out _)
  case inr.inr.inl => rw [execTrap_puts] at h; exact .print (.inr (.inl rfl)) (State.onlyIo_scanFromR0 h)
  case inr.inr.inr.inl =>
    replace h : trapIn s.link = .next t := h
    unfold trapIn at h
    split at h
    · cases h
    · next c m hget =>
      cases h
      exact .char _ c (.inr rfl) (((State.onlyIo_inGet hget).trans (m.onlyIo_out _)).trans (State.onlyIo_out _ [c])) rfl
  case inr.inr.inr.inr.inl => rw [execTrap_putsp] at h; exact .print (.inr (.inr rfl)) (State.onlyIo_scanFromR0 h)
  case inr.inr.inr.inr.inr.inl => cases h; exact .halt rfl rfl
  case inr.inr.inr.inr.inr.inr =>
    rw [execTrap_unknown hu] at h
    cases h
    exact .unknown hu rfl

theorem exec_effect {i : Instr} {s t : State} (h : exec i s = .next t) : ExecEffect i s t := by
  cases i with
  | addReg | addImm | andReg | andImm | not | lea => cases h; exact ⟨_, rfl⟩
  | ld dr off => cases h; exact ⟨_, _, s.onlyIo_memRead _, rfl⟩
  | ldr dr base off => cases h; exact ⟨_, _, s.onlyIo_memRead _, rfl⟩
  | ldi dr off => cases h; exact ⟨_, _, (s.onlyIo_memRead _).trans (State.onlyIo_memRead _ _), rfl⟩
  | st | str => cases h; exact ⟨_, _, _, State.OnlyIo.refl s, rfl⟩
  | sti sr off => cases h; exact ⟨_, _, _, s.onlyIo_memRead _, rfl⟩
  | br nzp off => rw [exec_br] at h; cases h; rfl
  | jsr off => rw [exec_jsr] at h; cases h; rfl
  | jmp | jsrr | rti | reserved => cases h; rfl
  | trap spare vect => exact trapEffect_of_execTrap h

/-! ### The rules read off it -/

theorem exec_advances {i : Instr} {s t : State} (h : exec i s = .next t) : s.Advances t := by
  have he := exec_effect h
  cases i with
  | addReg | addImm | andReg | andImm | not | lea =>
    obtain ⟨v, rfl⟩ := he
    exact ⟨List.prefix_rfl, List.suffix_rfl, rfl, rfl, id, id⟩
  | ld | ldi | ldr =>
    obtain ⟨m, v, hio, rfl⟩ := he
    exact ⟨hio.output, hio.queue, hio.segments, hio.params, hio.running, hio.wf⟩
  | st | sti | str =>
    obtain ⟨m, a, v, hio, rfl⟩ := he
    exact ⟨hio.output, hio.queue, hio.segments, hio.params, hio.running, fun hm => State.memWrite_wf (hio.wf hm) a v⟩
  | br | jmp | jsr | jsrr | rti | reserved =>
    cases he
    exact ⟨List.prefix_rfl, List.suffix_rfl, rfl, rfl, id, id⟩
  | trap spare vect =>
    cases he with
    | char m c hv hio ht =>
      subst ht
      exact ⟨hio.output, hio.queue, hio.segments, hio.params, hio.running, hio.wf⟩
    | print hv hio => exact ⟨hio.output, hio.queue, hio.segments, hio.params, hio.running, hio.wf⟩
    | halt hv ht =>
      subst ht
      exact ⟨List.prefix_append s.output _, List.suffix_rfl, rfl, rfl, nofun, id⟩
    | unknown hv ht =>
      subst ht
      exact ⟨List.prefix_rfl, List.suffix_rfl, rfl, rfl, id, id⟩

theorem step_advances {s t : State} (h : step s = .next t) : s.Advances t := by
  obtain ⟨_, _, ⟨_, hexec⟩ | ⟨_, rfl⟩⟩ := step_next_cases h
  · have hread := (s.onlyIo_memRead s.pc).toAdvances
    have hfetch : s.Advances s.fetch.2 :=
      ⟨hread.output, hread.queue, hread.segments, hread.params, hread.running, hread.wf⟩
    exact hfetch.trans (exec_advances hexec)
  · exact State.Advances.refl _

/-- Settles O51: the fetch and every instruction only advance the streams. -/
theorem stepAppendsOutputAndConsumesInput : Obligations.StepAppendsOutputAndConsumesInput := by
  intro s t h
  have ha := step_advances h
  exact ⟨ha.output, ha.queue, ha.segments, ha.params, ha.running⟩

/-- Settles O47, read off `exec_effect`: a result is written to DR, a link to R7, a character to R0. -/
theorem onlyListedRegistersAreWritten : Obligations.OnlyListedRegistersAreWritten := by
  intro i s t r h hr
  have he := exec_effect h
  cases i with
  | addReg | addImm | andReg | andImm | not | lea =>
    obtain ⟨v, rfl⟩ := he
    exact (State.reg_writeResult ..).trans (if_neg hr)
  | ld | ldi | ldr =>
    obtain ⟨m, v, hio, rfl⟩ := he
    exact ((State.reg_writeResult ..).trans (if_neg hr)).trans (hio.regs r)
  | st | sti | str =>
    obtain ⟨m, a, v, hio, rfl⟩ := he
    exact hio.regs r
  | br | jmp | rti | reserved => cases he; rfl
  | jsr | jsrr => cases he; exact (State.reg_link s r).trans (if_neg hr)
  | trap spare vect =>
    obtain ⟨hr7, hr0⟩ := hr
    have hlink : s.link.reg r = s.reg r := (State.reg_link s r).trans (if_neg hr7)
    rw [← hlink]
    cases he with
    | char m c hv hio ht =>
      rw [ht, State.reg_writeResult, if_neg (hr0 hv), hio.regs r]
    | print hv hio => exact hio.regs r
    | halt hv ht => rw [ht]; rfl
    | unknown hv ht => rw [ht]; rfl

/-- Settles O48, read off `exec_effect`: only a control transfer writes PC. -/
theorem pcAfterEachInstruction : Obligations.PcAfterEachInstruction := by
  intro i s t h
  have he := exec_effect h
  cases i with
  | addReg | addImm | andReg | andImm | not | lea => obtain ⟨v, rfl⟩ := he; rfl
  | ld | ldi | ldr => obtain ⟨m, v, hio, rfl⟩ := he; exact hio.pc
  | st | sti | str => obtain ⟨m, a, v, hio, rfl⟩ := he; exact hio.pc
  | br | jmp | jsr | rti | reserved => cases he; rfl
  | jsrr hi base lo =>
    cases he
    intro hfirst
    rw [State.setPc_pc, hfirst]
    rfl
  | trap spare vect =>
    cases he with
    | char m c hv hio ht => rw [ht]; exact hio.pc
    | print hv hio => exact hio.pc
    | halt hv ht => rw [ht]; rfl
    | unknown hv ht => rw [ht]; rfl

/-- Settles O49, read off `exec_effect`. -/
theorem onlyListedInstructionsHaltOrFail : Obligations.OnlyListedInstructionsHaltOrFail := by
  intro i s t h
  have he := exec_effect h
  cases i with
  | addReg | addImm | andReg | andImm | not | lea => obtain ⟨v, rfl⟩ := he; exact ⟨rfl, fun hne => hne rfl⟩
  | ld | ldi | ldr => obtain ⟨m, v, hio, rfl⟩ := he; exact ⟨hio.flag, fun hne => hne hio.faultLatch⟩
  | st | sti | str => obtain ⟨m, a, v, hio, rfl⟩ := he; exact ⟨hio.flag, fun hne => hne hio.faultLatch⟩
  | br | jmp | jsr | jsrr => cases he; exact ⟨rfl, fun hne => hne rfl⟩
  | rti | reserved => cases he; exact ⟨rfl, fun _ => trivial⟩
  | trap spare vect =>
    cases he with
    | char m c hv hio ht =>
      have hne : vect ≠ 0x25 := by bv_omega
      rw [ht]
      exact ⟨hio.flag.trans (if_neg hne).symm, fun hl => absurd hio.faultLatch hl⟩
    | print hv hio =>
      have hne : vect ≠ 0x25 := by bv_omega
      exact ⟨hio.flag.trans (if_neg hne).symm, fun hl => absurd hio.faultLatch hl⟩
    | halt hv ht => rw [ht]; exact ⟨(if_pos hv).symm, fun hl => absurd rfl hl⟩
    | unknown hv ht =>
      have hne : vect ≠ 0x25 := by bv_omega
      rw [ht]
      exact ⟨(if_neg hne).symm, fun _ => hv⟩

/-- Settles O50, read off `exec_effect`: what is left beside a store is reads, and the two keyboard words. -/
theorem onlyStoresWriteMemory : Obligations.OnlyStoresWriteMemory := by
  intro i s t h hst hsti hstr
  have he := exec_effect h
  cases i with
  | st sr off => exact absurd rfl (hst sr off)
  | sti sr off => exact absurd rfl (hsti sr off)
  | str sr base off => exact absurd rfl (hstr sr base off)
  | addReg | addImm | andReg | andImm | not | lea =>
    obtain ⟨v, rfl⟩ := he
    exact ⟨fun _ _ _ => rfl, fun _ _ _ _ _ => rfl⟩
  | br | jmp | jsr | jsrr | rti | reserved =>
    cases he
    exact ⟨fun _ _ _ => rfl, fun _ _ _ _ _ => rfl⟩
  | ld dr off =>
    obtain ⟨m, v, hio, rfl⟩ := he
    exact ⟨hio.memory, fun hld => absurd rfl (hld dr off)⟩
  | ldi dr off =>
    obtain ⟨m, v, hio, rfl⟩ := he
    exact ⟨hio.memory, fun _ hldi => absurd rfl (hldi dr off)⟩
  | ldr dr base off =>
    obtain ⟨m, v, hio, rfl⟩ := he
    exact ⟨hio.memory, fun _ _ hldr => absurd rfl (hldr dr base off)⟩
  | trap spare vect =>
    refine ⟨?_, fun _ _ _ htrap => absurd rfl (htrap spare vect)⟩
    cases he with
    | char m c hv hio ht => rw [ht]; exact hio.memory
    | print hv hio => exact hio.memory
    | halt hv ht => rw [ht]; exact fun _ _ _ => rfl
    | unknown hv ht => rw [ht]; exact fun _ _ _ => rfl

end Sys2Proof.Machine
end

section
/-! PROOFS. The output sink is append-only (R36, D19): nothing reads it back.

Stated as a commutation: putting bytes in front of the output first and stepping then is stepping and putting them in
front afterwards. A state is its output put in front of the same state with an empty sink, so one step from there serves
every output. -/

namespace Sys2Proof.Machine

/-- The state with `p` in front of its output. -/
def State.prepend (p : List Byte) (s : State) : State := { s with output := p ++ s.output }

/-- What a step answers, with `p` in front of the output of the next state. -/
def Result.prepend (p : List Byte) : Result → Result
  | .next t => .next (t.prepend p)
  | .fault f => .fault f
  | .refused r => .refused r

@[simp] theorem Result.prepend_next (p : List Byte) (s : State) :
    Result.prepend p (.next s) = .next (s.prepend p) := rfl

/-- `f` never reads the output. -/
def AppendsOnly (f : State → Result) : Prop := ∀ p s, f (s.prepend p) = Result.prepend p (f s)

/-! ### The shared operations -/

@[simp] theorem State.reg_prepend (p : List Byte) (s : State) (r : Reg) : (s.prepend p).reg r = s.reg r := rfl

@[simp] theorem State.peek_prepend (p : List Byte) (s : State) (a : Word) : (s.prepend p).peek a = s.peek a := rfl

@[simp] theorem State.pcRel9_prepend (p : List Byte) (s : State) (off : BitVec 9) :
    (s.prepend p).pcRel9 off = s.pcRel9 off := rfl

@[simp] theorem State.baseOff_prepend (p : List Byte) (s : State) (base : Reg) (off : BitVec 6) :
    (s.prepend p).baseOff base off = s.baseOff base off := rfl

@[simp] theorem State.writeResult_prepend (p : List Byte) (s : State) (dr : Reg) (v : Word) :
    (s.prepend p).writeResult dr v = (s.writeResult dr v).prepend p := rfl

@[simp] theorem State.memWrite_prepend (p : List Byte) (s : State) (a v : Word) :
    (s.prepend p).memWrite a v = (s.memWrite a v).prepend p := rfl

theorem State.out_prepend (p : List Byte) (s : State) (bs : List Byte) :
    (s.prepend p).out bs = (s.out bs).prepend p := by
  simp only [State.out, State.prepend, List.append_assoc]

@[simp] theorem State.poll_prepend (p : List Byte) (s : State) : (s.prepend p).poll = s.poll.prepend p := by
  cases hm : s.params.inputMode with
  | injected => simp [State.poll, State.prepend, hm]
  | live => cases hq : s.inputQueue <;> simp [State.poll, State.prepend, State.memWrite, hm, hq]

@[simp] theorem State.memRead_prepend (p : List Byte) (s : State) (a : Word) :
    (s.prepend p).memRead a = ((s.memRead a).1, (s.memRead a).2.prepend p) := by
  by_cases ha : a = kbsr <;> simp [State.memRead, ha]

@[simp] theorem State.inGet_prepend (p : List Byte) (s : State) :
    (s.prepend p).inGet = s.inGet.map (fun g => (g.1, g.2.prepend p)) := by
  have hp : (s.prepend p).params = s.params := rfl
  cases hm : s.params.inputMode with
  | live => cases hq : s.inputQueue <;> simp [State.inGet, State.prepend, hm, hq]
  | injected => cases hk : (s.peek kbsr).getLsbD 15 <;> simp [State.inGet, hp, hm, hk]

theorem scan_prepend (bytes : Word → List Byte) (p : List Byte) (fuel : Nat) (a : Word) (s : State) :
    scan bytes fuel a (s.prepend p) = (scan bytes fuel a s).map (·.prepend p) := by
  induction fuel generalizing a s with
  | zero => rfl
  | succ fuel ih =>
    simp only [scan, State.memRead_prepend, State.out_prepend]
    split
    · rfl
    · exact ih (a + 1) ((s.memRead a).2.out (bytes (s.memRead a).1))

/-! ### Every instruction, and the step -/

theorem appendsOnly_trapGetc : AppendsOnly trapGetc := by
  intro p s
  simp only [trapGetc, State.inGet_prepend]
  cases s.inGet <;> rfl

theorem appendsOnly_trapIn : AppendsOnly trapIn := by
  intro p s
  simp only [trapIn, State.inGet_prepend]
  cases s.inGet with
  | none => rfl
  | some g => simp only [Option.map_some, State.out_prepend]; rfl

theorem appendsOnly_out {m : State → List Byte} {k : State → State} (hm : ∀ p s, m (s.prepend p) = m s)
    (hk : ∀ p s, k (s.prepend p) = (k s).prepend p) : AppendsOnly (fun s => .next (k (s.out (m s)))) := by
  intro p s
  simp only [hm, hk, State.out_prepend]
  rfl

theorem appendsOnly_scanFromR0 (bytes : Word → List Byte) : AppendsOnly (State.scanFromR0 bytes) := by
  intro p s
  have hscan : scan bytes (s.prepend p).scanFuel ((s.prepend p).reg .r0) (s.prepend p) =
      (scan bytes s.scanFuel (s.reg .r0) s).map (·.prepend p) := scan_prepend ..
  cases h : scan bytes s.scanFuel (s.reg .r0) s with
  | none => rw [State.scanFromR0_of_none h, State.scanFromR0_of_none (by rw [hscan, h]; rfl)]; rfl
  | some t => rw [State.scanFromR0_of_some h, State.scanFromR0_of_some (by rw [hscan, h]; rfl)]; rfl

theorem AppendsOnly.afterLink {f : State → Result} (hf : AppendsOnly f) : AppendsOnly (fun s => f s.link) :=
  fun p s => hf p s.link

theorem appendsOnly_execTrap (vect : BitVec 8) : AppendsOnly (execTrap vect) := by
  obtain rfl | rfl | rfl | rfl | rfl | rfl | hu := trapVector_cases vect
  · exact appendsOnly_trapGetc.afterLink
  · exact (appendsOnly_out (m := fun s => [lowByte (s.reg .r0)]) (k := id) (fun _ _ => rfl) fun _ _ => rfl).afterLink
  · rw [funext execTrap_puts]; exact (appendsOnly_scanFromR0 putsBytes).afterLink
  · exact appendsOnly_trapIn.afterLink
  · rw [funext execTrap_putsp]; exact (appendsOnly_scanFromR0 putspBytes).afterLink
  · exact (appendsOnly_out (m := fun s => s.params.haltNotice) (k := State.halt) (fun _ _ => rfl)
      fun _ _ => rfl).afterLink
  · rw [funext (execTrap_unknown hu)]
    exact fun _ _ => rfl

theorem appendsOnly_exec (i : Instr) : AppendsOnly (exec i) := by
  cases i with
  | br nzp off =>
    intro p s
    rw [exec_br, exec_br]
    rfl
  | ld dr off => intro p s; simp [exec, execLd]
  | ldr dr base off => intro p s; simp [exec, execLdr]
  | ldi dr off => intro p s; simp [exec, execLdi]
  | sti sr off => intro p s; simp [exec, execSti]
  | trap spare vect => exact appendsOnly_execTrap vect
  | _ => exact fun _ _ => rfl

theorem appendsOnly_step : AppendsOnly step := by
  intro p s
  have hfetch : (s.prepend p).fetch = (s.fetch.1, s.fetch.2.prepend p) := by
    have hpc : (s.prepend p).pc = s.pc := rfl
    simp only [State.fetch_eq, hpc, State.memRead_prepend]
    rfl
  have hcond : (s.prepend p).cond = s.cond := rfl
  have hlatch : (s.prepend p).faultLatch = s.faultLatch := rfl
  have hrunning : (s.prepend p).running = s.running := rfl
  simp only [step, hcond, hlatch, hrunning, hfetch, appendsOnly_exec _ p s.fetch.2]
  cases condLegal s.cond <;> cases s.faultLatch <;> cases s.running <;> rfl

/-- Settles O52: both steps are the step from an empty sink, with the two outputs put in front. -/
theorem outputIsNeverReadBack : Obligations.OutputIsNeverReadBack := by
  intro s o
  have hs : step s = Result.prepend s.output (step { s with output := [] }) := by
    rw [← appendsOnly_step]
    simp [State.prepend]
  have ho : step { s with output := o } = Result.prepend o (step { s with output := [] }) := by
    rw [← appendsOnly_step]
    simp [State.prepend]
  rw [hs, ho]
  cases step { s with output := [] } with
  | next t => exact ⟨t.output, rfl, rfl⟩
  | fault f => rfl
  | refused r => rfl

end Sys2Proof.Machine
end

section
/-! PROOFS. The poll of KBSR (R44 to R47) and the TRAP services (R140 to R152).

GETC and IN differ only in what they output, so the character's way into R0 and COND is proved once, from any state that
input and output left after the link write. PUTS and PUTSP are one scan with two choices of bytes. -/

namespace Sys2Proof
namespace Machine

/-! ### The poll -/

theorem State.poll_live_nil {s : State} (hm : s.params.inputMode = .live) (hq : s.inputQueue = []) :
    s.poll = s.memWrite kbsr 0 := by
  rw [State.poll, hm, hq]

theorem State.poll_live_cons {s : State} {c : Byte} {rest : List Byte} (hm : s.params.inputMode = .live)
    (hq : s.inputQueue = c :: rest) :
    s.poll = ({ s with inputQueue := rest }.memWrite kbdr (charWord c)).memWrite kbsr 0x8000 := by
  rw [State.poll, hm, hq]

theorem charWord_eq_ofNat (c : Byte) : charWord c = BitVec.ofNat 16 c.toNat :=
  BitVec.eq_of_toNat_eq (by simp [charWord])

/-- Settles O9: the three cases of the poll, and the frame of a read. -/
theorem kbsrReadPolls : Obligations.KbsrReadPolls := by
  intro s
  refine ⟨fun c rest hm hq => ?queued, fun hm hq => ?empty, fun hm => ?injected, s.memRead_reg kbsr, s.memRead_pc kbsr,
    s.memRead_cond kbsr, s.memRead_quiet kbsr⟩
  case queued =>
    have hread := s.memRead_kbsr
    rw [State.poll_live_cons hm hq, charWord_eq_ofNat] at hread
    rw [show (0xFE00 : Word) = kbsr from rfl, hread]
    exact ⟨by simp, rfl, fun a => by simp only [State.peek_memWrite]; rfl⟩
  case empty =>
    have hread := s.memRead_kbsr
    rw [State.poll_live_nil hm hq] at hread
    rw [show (0xFE00 : Word) = kbsr from rfl, hread]
    exact ⟨by simp, hq, fun a => by rw [State.peek_memWrite]⟩
  case injected => exact s.memRead_eq_peek kbsr (.inl hm)

/-! ### GETC and IN -/

theorem State.inGet_live_cons {s : State} {c : Byte} {rest : List Byte} (hm : s.params.inputMode = .live)
    (hq : s.inputQueue = c :: rest) : s.inGet = some (c, { s with inputQueue := rest }) := by
  rw [State.inGet, hm, hq]

theorem State.inGet_injected {s : State} (hm : s.params.inputMode = .injected) (hk : (s.peek kbsr).getLsbD 15 = true) :
    s.inGet = some ((s.peek kbdr).extractLsb' 0 8, s.memWrite kbsr 0) := by
  rw [State.inGet, hm]
  exact if_pos hk

/-- InGet holds exactly when no character is available (R142). -/
theorem State.inGet_eq_none_iff_not_charReady (s : State) : s.inGet = none ↔ ¬ s.CharReady := by
  rw [State.inGet_eq_none_iff, State.CharReady]
  cases s.params.inputMode <;> simp

/-- The link write makes no character available and takes none. -/
theorem State.inGet_link_of_not_charReady {s : State} (h : ¬ s.CharReady) : s.link.inGet = none :=
  s.link.inGet_eq_none_iff_not_charReady.2 h

theorem State.exists_inGet_link_of_charReady {s : State} (h : s.CharReady) : ∃ c m, s.link.inGet = some (c, m) := by
  have hget : s.link.inGet ≠ none := fun hnone => s.link.inGet_eq_none_iff_not_charReady.1 hnone h
  obtain ⟨⟨c, m⟩, hcm⟩ := Option.ne_none_iff_exists'.1 hget
  exact ⟨c, m, hcm⟩

theorem charWord_eq_zero_iff (c : Byte) : charWord c = 0 ↔ c = 0 := by
  rw [charWord]
  bv_omega

/-- A character is never negative (R143): COND is ZRO for 0x00 and POS otherwise. -/
theorem flagFor_charWord (c : Byte) : flagFor (charWord c) = if c = 0 then 2 else 1 := by
  have hpos : (charWord c).getLsbD 15 = false := by simp [charWord]
  simp only [flagFor, charWord_eq_zero_iff, hpos]
  rfl

/-- The low byte of a word, as a character (R142). -/
theorem charWord_extractLsb' (w : Word) : charWord (w.extractLsb' 0 8) = w &&& 0x00FF := by
  have hmask := Nat.and_two_pow_sub_one_eq_mod w.toNat 8
  have hlow := Nat.mod_lt w.toNat (show 0 < 2 ^ 8 by decide)
  apply BitVec.eq_of_toNat_eq
  simp only [charWord, BitVec.toNat_setWidth, BitVec.extractLsb'_toNat, BitVec.toNat_and, Nat.shiftRight_zero]
  show _ = w.toNat &&& (2 ^ 8 - 1)
  omega

theorem flagFor_charWord_extractLsb' (w : Word) :
    flagFor (charWord (w.extractLsb' 0 8)) = if w &&& 0x00FF = 0 then 2 else 1 := by
  rw [flagFor_charWord]
  simp only [← charWord_eq_zero_iff, charWord_extractLsb']

/-- What a character taken in `m` leaves, when `m` is the state input and output left after the link write. -/
theorem State.OnlyIo.charResult {s m : State} (h : s.link.OnlyIo m) (c : Byte) :
    (m.writeResult .r0 (charWord c)).reg .r0 = charWord c ∧ (m.writeResult .r0 (charWord c)).reg .r7 = s.pc ∧
    (∀ r, r ≠ .r0 → r ≠ .r7 → (m.writeResult .r0 (charWord c)).reg r = s.reg r) ∧
    (m.writeResult .r0 (charWord c)).cond = flagFor (charWord c) ∧ (m.writeResult .r0 (charWord c)).pc = s.pc := by
  exact ⟨by simp, by simp [h.regs .r7], fun r h0 h7 => by simp [h.regs r, h0, h7], rfl, h.pc⟩

theorem exec_getc_of_inGet {s m : State} {c : Byte} (h : s.link.inGet = some (c, m)) (spare : BitVec 4) :
    exec (.trap spare 0x20) s = .next (m.writeResult .r0 (charWord c)) := by
  show trapGetc s.link = _
  rw [trapGetc, h]

theorem exec_in_of_inGet {s m : State} {c : Byte} (h : s.link.inGet = some (c, m)) (spare : BitVec 4) :
    exec (.trap spare 0x23) s = .next (((m.out m.params.inPrompt).out [c]).writeResult .r0 (charWord c)) := by
  show trapIn s.link = _
  rw [trapIn, h]

/-- IN takes the character, then outputs the prompt and the echo (R146). -/
theorem State.onlyIo_in {s m : State} {c : Byte} (h : s.inGet = some (c, m)) :
    s.OnlyIo ((m.out m.params.inPrompt).out [c]) :=
  ((State.onlyIo_inGet h).trans (m.onlyIo_out _)).trans (State.onlyIo_out _ [c])

theorem exec_getc_of_held {s : State} (h : s.link.inGet = none) (spare : BitVec 4) :
    exec (.trap spare 0x20) s = .fault .held := by
  show trapGetc s.link = _
  rw [trapGetc, h]

theorem exec_in_of_held {s : State} (h : s.link.inGet = none) (spare : BitVec 4) :
    exec (.trap spare 0x23) s = .fault .held := by
  show trapIn s.link = _
  rw [trapIn, h]

/-! ### OUT, HALT and the unknown vectors -/

theorem exec_out (spare : BitVec 4) (s : State) :
    exec (.trap spare 0x21) s = .next (s.link.out [(s.reg .r0).extractLsb' 0 8]) := rfl

theorem exec_halt (spare : BitVec 4) (s : State) :
    exec (.trap spare 0x25) s = .next (s.link.out s.params.haltNotice).halt := rfl

theorem exec_unknown {vect : BitVec 8} (h : vect.toNat < 0x20 ∨ 0x25 < vect.toNat) (spare : BitVec 4) (s : State) :
    exec (.trap spare vect) s = .next { s.link with faultLatch := some (.unknownTrap vect (s.pc - 1)) } :=
  execTrap_unknown h s

theorem State.link_reg_r7 (s : State) : s.link.reg .r7 = s.pc := by rw [State.reg_link, if_pos rfl]

theorem State.link_sameRegsBut (s : State) : s.SameRegsBut s.link .r7 :=
  fun r hr => by rw [State.reg_link, if_neg hr]

/-- A step that finds the running flag false changes nothing (R76). -/
theorem step_of_halted {s : State} (hc : condLegal s.cond = true) (hl : s.faultLatch = none) (hr : s.running = false) :
    step s = .next s := by
  rw [step, if_pos hc, hl, hr]
  rfl

/-- Settles O31: the link write and the record. -/
theorem trapUnknownVector : Obligations.TrapUnknownVector := fun spare _ s hv =>
  ⟨_, exec_unknown hv spare s, rfl, s.link_reg_r7, s.link_sameRegsBut, rfl, rfl, fun _ => rfl, rfl, rfl, rfl, rfl, rfl⟩

/-! ### PUTS and PUTSP -/

section Scan

variable {bytes : Word → List Byte}

/-- The bound is never seen (R152, log entry 7): a scan that ends at all ends within its fuel. -/
theorem scan_scanFuel_eq_some_iff {s t : State} {a : Word} :
    scan bytes s.scanFuel a s = some t ↔ ScanEnds bytes a s t := by
  refine ⟨scanEnds_of_scan, fun hends => ?_⟩
  obtain ⟨n, hn⟩ := scan_of_scanEnds hends
  cases hf : scan bytes s.scanFuel a s with
  | none => rw [scan_none_of_scanFuel hf n] at hn; cases hn
  | some u =>
    have hu := scan_mono hf (max n s.scanFuel) (le_max_right ..)
    rwa [scan_mono hn (max n s.scanFuel) (le_max_left ..), eq_comm] at hu

theorem State.scanFromR0_eq_next_iff_scanEnds {s t : State} :
    s.scanFromR0 bytes = .next t ↔ ScanEnds bytes (s.reg .r0) s t :=
  State.scanFromR0_eq_next_iff.trans scan_scanFuel_eq_some_iff

theorem State.scanFromR0_eq_diverged_iff_not_scanEnds {s : State} :
    s.scanFromR0 bytes = .fault .diverged ↔ ¬ ∃ t, ScanEnds bytes (s.reg .r0) s t := by
  simp only [State.scanFromR0_eq_diverged_iff, ← scan_scanFuel_eq_some_iff, Option.eq_none_iff_forall_ne_some,
    not_exists, ne_eq]

/-- A LIVE scan ends (R152). -/
theorem State.scanFromR0_live {s : State} (h : s.params.inputMode = .live) : ∃ t, s.scanFromR0 bytes = .next t := by
  obtain ⟨t, ht⟩ := Option.ne_none_iff_exists'.1 (scan_live_ne_none (bytes := bytes) s (s.reg .r0) h)
  exact ⟨t, State.scanFromR0_of_some ht⟩

/-- An INJECTED scan reads memory as it stands, so it is Diverged exactly when no word is zero (R152): every address is
within one lap. -/
theorem State.scanFromR0_injected_diverged_iff {s : State} (h : s.params.inputMode = .injected) :
    s.scanFromR0 bytes = .fault .diverged ↔ ∀ a : Word, s.peek a ≠ 0 := by
  rw [State.scanFromR0_eq_diverged_iff, scan_eq_none_iff]
  simp only [scanAfter_read_injected _ _ _ h]
  refine ⟨fun hreads a => ?_, fun hall k _ => hall _⟩
  have hlap : (a - s.reg .r0).toNat < s.scanFuel := by
    have := (a - s.reg .r0).isLt
    unfold State.scanFuel
    omega
  have hread := hreads _ hlap
  rwa [BitVec.ofNat_toNat, BitVec.setWidth_eq, BitVec.add_comm, BitVec.sub_add_cancel] at hread

theorem State.scanFromR0_injected_next_iff {s : State} (h : s.params.inputMode = .injected) :
    (∃ t, s.scanFromR0 bytes = .next t) ↔ ∃ a : Word, s.peek a = 0 := by
  rw [← not_iff_not, not_exists, not_exists, ← State.scanFromR0_injected_diverged_iff (bytes := bytes) h,
    State.scanFromR0_eq_diverged_iff, Option.eq_none_iff_forall_ne_some]
  simp only [State.scanFromR0_eq_next_iff, ne_eq]

/-- A string of n words ends within one lap: the first zero word of a lap is at an offset below 65536. -/
theorem lt_of_first_zero {s : State} {a : Word} {n : Nat} (h0 : s.peek (a + BitVec.ofNat 16 n) = 0)
    (hne : ∀ k, k < n → s.peek (a + BitVec.ofNat 16 k) ≠ 0) : n < 65536 := by
  by_contra hn
  refine hne (n % 65536) (by omega) ?_
  rwa [show BitVec.ofNat 16 (n % 65536) = BitVec.ofNat 16 n from BitVec.eq_of_toNat_eq (by simp)]

/-- A string from R0 on is output word by word, whatever R7 holds (R145, R147). -/
theorem State.scanFromR0_string {s : State} {n : Nat} (h0 : s.peek (s.reg .r0 + BitVec.ofNat 16 n) = 0)
    (hne : ∀ k, k < n → s.peek (s.reg .r0 + BitVec.ofNat 16 k) ≠ 0)
    (hk : s.params.inputMode = .injected ∨ ∀ k, k ≤ n → s.reg .r0 + BitVec.ofNat 16 k ≠ kbsr) :
    s.scanFromR0 bytes =
      .next (s.out ((List.range n).flatMap (fun k => bytes (s.peek (s.reg .r0 + BitVec.ofNat 16 k))))) := by
  have hlap := lt_of_first_zero h0 hne
  exact State.scanFromR0_of_some (scan_string n s.scanFuel (s.reg .r0) s (by unfold State.scanFuel; omega) h0 hne hk)

end Scan

theorem State.link_onlyLinkAndPc (s : State) : s.OnlyLinkAndPc s.link :=
  State.OnlyPc.onlyLinkAndPc (s.link.onlyPc_setPc s.pc)

/-- Settles O32: the scan of a string, with the bytes of each service; the output apart, the link write is all. -/
theorem trapPutsAndPutspEmitTheString : Obligations.TrapPutsAndPutspEmitTheString := by
  intro spare s n h0 hne hk
  refine ⟨⟨_, (execTrap_puts s).trans (State.scanFromR0_string h0 hne hk), s.link_onlyLinkAndPc, rfl, ?puts⟩,
    ⟨_, (execTrap_putsp s).trans (State.scanFromR0_string h0 hne hk), s.link_onlyLinkAndPc, rfl, rfl⟩⟩
  case puts =>
    rw [List.map_eq_flatMap]
    rfl

/-- Settles O33: the link write, and then the bound is never seen. -/
theorem putsAndPutspRunTheUnboundedScan : Obligations.PutsAndPutspRunTheUnboundedScan := by
  intro spare s
  simp only [exec_trap, execTrap_puts, execTrap_putsp]
  exact ⟨fun _ => State.scanFromR0_eq_next_iff_scanEnds, State.scanFromR0_eq_diverged_iff_not_scanEnds,
    fun _ => State.scanFromR0_eq_next_iff_scanEnds, State.scanFromR0_eq_diverged_iff_not_scanEnds⟩

/-- Settles O34: a LIVE scan ends, from the state the link write left. -/
theorem scansAlwaysEndInLiveMode : Obligations.ScansAlwaysEndInLiveMode := by
  intro spare s hm
  simp only [exec_trap, execTrap_puts, execTrap_putsp]
  exact ⟨State.scanFromR0_live hm, State.scanFromR0_live hm⟩

/-- Settles O35: an INJECTED scan ends exactly at a zero word; the link write changes no word. -/
theorem scansEndIffAWordIsZeroInInjectedMode : Obligations.ScansEndIffAWordIsZeroInInjectedMode := by
  intro spare s hm
  have hdiv {bytes} := State.scanFromR0_injected_diverged_iff (s := s.link) (bytes := bytes) hm
  simp only [exec_trap, execTrap_puts, execTrap_putsp]
  exact ⟨State.scanFromR0_injected_next_iff hm, State.scanFromR0_injected_next_iff hm, fun hall =>
    ⟨hdiv.2 hall, hdiv.2 hall⟩⟩

end Machine

/-! ### The services one by one -/

open Machine

/-- Settles O27: the character taken after the link write, in each mode, and `charResult` from there. -/
theorem trapGetc : Obligations.TrapGetc := by
  refine ⟨fun w hop => decode_of_opcode_trap hop, fun spare s c rest hm hq => ?live, fun spare s hm hk => ?injected,
    fun spare s hc => exec_getc_of_held (State.inGet_link_of_not_charReady hc) spare⟩
  case live =>
    have hget := State.inGet_live_cons (s := s.link) hm hq
    obtain ⟨h0, h7, hregs, hcond, hpc⟩ := (State.onlyIo_inGet hget).charResult c
    exact ⟨_, exec_getc_of_inGet hget spare, h0.trans (charWord_eq_ofNat c), h7, hregs,
      hcond.trans (flagFor_charWord c), hpc, fun _ => rfl, rfl,
      ⟨rfl, rfl, rfl, rfl, rfl⟩⟩
  case injected =>
    have hget := State.inGet_injected (s := s.link) hm hk
    obtain ⟨h0, h7, hregs, hcond, hpc⟩ := (State.onlyIo_inGet hget).charResult _
    exact ⟨_, exec_getc_of_inGet hget spare, h0.trans (charWord_extractLsb' _), h7, hregs,
      hcond.trans (flagFor_charWord_extractLsb' _), hpc, fun a => s.link.peek_memWrite kbsr a 0, rfl,
      ⟨rfl, rfl, rfl, rfl, rfl⟩⟩

/-- Settles O28: as GETC, with the prompt and the echo appended before R0 is written. -/
theorem trapIn : Obligations.TrapIn := by
  refine ⟨fun spare s c rest hm hq => ?live, fun spare s hm hk => ?injected,
    fun spare s hc => exec_in_of_held (State.inGet_link_of_not_charReady hc) spare⟩
  case live =>
    have hget := State.inGet_live_cons (s := s.link) hm hq
    obtain ⟨h0, h7, hregs, hcond, hpc⟩ := (State.onlyIo_in hget).charResult c
    exact ⟨_, exec_in_of_inGet hget spare, rfl, h0.trans (charWord_eq_ofNat c), h7, hregs,
      hcond.trans (flagFor_charWord c), hpc, fun _ => rfl, rfl,
      rfl, rfl, rfl, rfl⟩
  case injected =>
    have hget := State.inGet_injected (s := s.link) hm hk
    obtain ⟨h0, h7, hregs, hcond, hpc⟩ := (State.onlyIo_in hget).charResult _
    exact ⟨_, exec_in_of_inGet hget spare, rfl, h0.trans (charWord_extractLsb' _), h7, hregs,
      hcond.trans (flagFor_charWord_extractLsb' _), hpc, fun a => s.link.peek_memWrite kbsr a 0, rfl,
      rfl, rfl, rfl, rfl⟩

/-- Settles O29: the link write and one byte of output. -/
theorem trapOut : Obligations.TrapOut := fun spare s =>
  ⟨_, exec_out spare s, rfl, s.link_reg_r7, s.link_sameRegsBut, rfl, rfl, fun _ => rfl, rfl, rfl, rfl, rfl, rfl⟩

/-- Settles O30: the link write, the notice and the flag; the state left is a halted one. -/
theorem trapHalt : Obligations.TrapHalt := fun spare s =>
  ⟨_, exec_halt spare s, rfl, rfl, s.link_reg_r7, s.link_sameRegsBut, rfl, rfl, fun _ => rfl, rfl, rfl, rfl, rfl,
    fun hc hl => step_of_halted hc hl rfl⟩

end Sys2Proof
end

section
/-! PROOFS. The step (R76): when it runs an instruction, what a failing step leaves (R160, R161, R171, R172), when it is
refused (R39), when it is held (R79, R142), and the invariant.

A failing step is described once, by `exec_failure`; the rules on failures and on the fault latch follow from it. -/

namespace Sys2Proof.Machine

/-! ### The cases of a step -/

theorem condLegal_iff (c : Word) : condLegal c = true ↔ c = 1 ∨ c = 2 ∨ c = 4 := by
  simp [condLegal, or_assoc]

theorem step_of_latched {s : State} {f : Failure} (hc : condLegal s.cond = true) (hl : s.faultLatch = some f) :
    step s = .fault (.failed f) := by
  rw [step, if_pos hc, hl]

theorem step_of_ready {s : State} (h : s.Ready) :
    step s = exec (decode (s.memRead s.pc).1) ((s.memRead s.pc).2.setPc (s.pc + 1)) := by
  obtain ⟨hc, hl, hr⟩ := h
  rw [step, if_pos hc, hl, hr]
  rfl

/-- A fetch that does not poll, or polls in INJECTED mode, leaves all but PC as it was. -/
theorem step_of_ready_of_peek {s : State} (h : s.Ready) (hpc : s.params.inputMode = .injected ∨ s.pc ≠ kbsr) :
    step s = exec (decode (s.peek s.pc)) (s.setPc (s.pc + 1)) := by
  rw [step_of_ready h, State.memRead_eq_peek s.pc hpc]

/-- A step runs an instruction, or stops for one of three reasons. -/
theorem step_cases (s : State) :
    s.Ready ∨ (condLegal s.cond = false ∧ step s = .refused .illegalCond) ∨
      (condLegal s.cond = true ∧ ∃ f, s.faultLatch = some f ∧ step s = .fault (.failed f)) ∨ step s = .next s := by
  cases hc : condLegal s.cond with
  | false => exact .inr (.inl ⟨rfl, by rw [step, hc]; rfl⟩)
  | true =>
    cases hl : s.faultLatch with
    | some f => exact .inr (.inr (.inl ⟨rfl, f, rfl, step_of_latched hc hl⟩))
    | none =>
      cases hr : s.running with
      | true => exact .inl ⟨hc, hl, hr⟩
      | false => exact .inr (.inr (.inr (step_of_halted hc hl hr)))

/-- A step that is held or Diverged ran an instruction. -/
theorem ready_of_step_eq_fault {s : State} {f : Fault} (h : step s = .fault f) (hf : ∀ r, f ≠ .failed r) : s.Ready := by
  obtain hr | ⟨_, hs⟩ | ⟨_, r, _, hs⟩ | hs := step_cases s
  · exact hr
  · rw [hs] at h; cases h
  · rw [hs] at h; cases h; exact absurd rfl (hf r)
  · rw [hs] at h; cases h

/-- Settles O38: the latch is tested before the flag, and the step transaction hands the failure on. -/
theorem latchedCoreTakesNoStep : Obligations.LatchedCoreTakesNoStep := by
  intro s f hc hl
  have hs := step_of_latched hc hl
  exact ⟨hs, by rw [State.hostStep, hs]⟩

/-- Settles O39: `step_of_ready`, with the PC write spelled out. -/
theorem stepRunsTheFetchedInstruction : Obligations.StepRunsTheFetchedInstruction := fun _ h => step_of_ready h

/-- Settles O40: the step answers the state itself, whose latch is clear. -/
theorem haltedStepIsANoOp : Obligations.HaltedStepIsANoOp := by
  intro s hc hl hr
  have hs := step_of_halted hc hl hr
  exact ⟨hs, by rw [State.hostStep_of_next hs, hl]⟩

/-- Settles O41: `exec` refuses nothing, so a refusal is `step`'s own. -/
theorem onlyIllegalCondIsRefused : Obligations.OnlyIllegalCondIsRefused := by
  refine ⟨exec_ne_refused, fun s r => ?_⟩
  rw [← condLegal_iff, Bool.not_eq_true]
  obtain hr | ⟨hc, hs⟩ | ⟨hc, f, _, hs⟩ | hs := step_cases s
  · simp [step_of_ready hr, exec_ne_refused, hr.1]
  · simp [hs, hc, eq_comm]
  · simp [hs, hc]
  · simp [hs, (step_next_cases hs).1]

/-! ### Failures -/

/-- All a failing instruction does: RTI and the reserved opcode set the latch; a TRAP with an unknown vector links first
(R171, R172). -/
theorem exec_failure {i : Instr} {s t : State} (h : exec i s = .next t) (hne : t.faultLatch ≠ s.faultLatch) :
    (∃ op, (op = 8 ∨ op = 13) ∧ bitsOfOpcode i.opcode = op ∧
      t = { s with faultLatch := some (.illegalOpcode op (s.pc - 1)) }) ∨
    ∃ spare vect, i = .trap spare vect ∧ (vect.toNat < 0x20 ∨ 0x25 < vect.toNat) ∧
      t = { s.link with faultLatch := some (.unknownTrap vect (s.pc - 1)) } := by
  have hlisted := (onlyListedInstructionsHaltOrFail i s t h).2 hne
  cases i with
  | rti => cases h; exact .inl ⟨8, .inl rfl, rfl, rfl⟩
  | reserved => cases h; exact .inl ⟨13, .inr rfl, rfl, rfl⟩
  | trap spare vect =>
    rw [exec_unknown hlisted] at h
    cases h
    exact .inr ⟨spare, vect, rfl, hlisted, rfl⟩
  | _ => exact hlisted.elim

/-- Settles O36: opcodes 8 and 13, and the record alone. -/
theorem unimplementedOpcodesFail : Obligations.UnimplementedOpcodesFail :=
  ⟨fun _ hop => decode_of_opcode_rti hop, fun _ hop => decode_of_opcode_reserved hop, fun _ _ => rfl, fun _ _ => rfl⟩

/-- Settles O37: the failing instruction starts from the fetched state, where PC is the fetch address plus 1. -/
theorem failuresArePrecise : Obligations.FailuresArePrecise := by
  intro s t f hstep hl hf
  obtain ⟨_, _, ⟨_, hexec⟩ | ⟨_, rfl⟩⟩ := step_next_cases hstep
  case inr => rw [hl] at hf; cases hf
  have hread := s.leftByReads_memRead s.pc
  have haddr : s.pc + 1 - 1 = s.pc := BitVec.add_sub_cancel ..
  have hne : t.faultLatch ≠ s.fetch.2.faultLatch := by
    have hfetch : s.fetch.2.faultLatch = none := hread.quiet.faultLatch.trans hl
    rw [hf, hfetch]
    exact nofun
  obtain ⟨op, hop, hw, rfl⟩ | ⟨spare, vect, hi, hvect, rfl⟩ := exec_failure hexec hne
  case inl =>
    cases hf
    exact ⟨rfl, hread.cond, hread.quiet.running, hread.quiet.output, hread.quiet.segments, hread.quiet.params, rfl,
      fun _ => rfl, fun r _ => hread.regs r, hw.symm.trans (opcode_of_decode_eq rfl).symm, hop, haddr, hread.regs .r7⟩
  case inr =>
    cases hf
    exact ⟨rfl, hread.cond, hread.quiet.running, hread.quiet.output, hread.quiet.segments, hread.quiet.params, rfl,
      fun _ => rfl, fun r hr => (s.fetch.2.link_sameRegsBut r hr).trans (hread.regs r), opcode_of_decode_eq hi,
      (vector_of_decode_eq hi).symm, hvect, haddr, s.fetch.2.link_reg_r7⟩

/-! ### The invariant -/

theorem flagFor_legal (v : Word) : flagFor v = 1 ∨ flagFor v = 2 ∨ flagFor v = 4 := by
  unfold flagFor
  split
  · exact .inr (.inl rfl)
  · split
    · exact .inr (.inr rfl)
    · exact .inl rfl

/-- COND stays legal: an instruction leaves it or sets it from a value (R27, R28). -/
theorem step_cond_legal {s t : State} (h : step s = .next t) : t.cond = 1 ∨ t.cond = 2 ∨ t.cond = 4 := by
  obtain ⟨hc, _, ⟨_, hexec⟩ | ⟨_, rfl⟩⟩ := step_next_cases h
  · rw [exec_cond hexec]
    cases (decode s.fetch.1).condReg with
    | none => exact (condLegal_iff _).1 ((s.memRead_cond s.pc).symm ▸ hc)
    | some r => exact flagFor_legal (t.reg r)
  · exact (condLegal_iff _).1 hc

/-- What a step leaves in the latch is legal: the latch was clear before it, so a record is this step's. -/
theorem step_latchLegal {s t : State} (h : step s = .next t) : t.LatchLegal := by
  obtain ⟨_, hl, _⟩ := step_next_cases h
  unfold State.LatchLegal
  cases hf : t.faultLatch with
  | none => trivial
  | some f =>
    obtain ⟨hpc, _, _, _, _, _, _, _, _, hrecord⟩ := failuresArePrecise s t f h hl hf
    cases f with
    | illegalOpcode op addr =>
      obtain ⟨_, hop, rfl, _⟩ := hrecord
      exact ⟨hop, hpc⟩
    | unknownTrap vec addr =>
      obtain ⟨_, _, hvec, rfl, hr7⟩ := hrecord
      exact ⟨hvec, hpc, hr7⟩

/-- Settles O53: memory by `step_advances`, COND and the latch by the two lemmas above. -/
theorem stepKeepsTheInvariant : Obligations.StepKeepsTheInvariant := by
  intro s t ⟨hwf, _, _⟩ h
  exact ⟨(step_advances h).wf hwf, step_cond_legal h, step_latchLegal h⟩

/-! ### Held steps -/

theorem eq_diverged_of_scanFromR0_eq_fault {bytes : Word → List Byte} {s : State} {f : Fault}
    (h : s.scanFromR0 bytes = .fault f) : f = .diverged := by
  cases hscan : scan bytes s.scanFuel (s.reg .r0) s with
  | none => rw [State.scanFromR0_of_none hscan] at h; cases h; rfl
  | some t => rw [State.scanFromR0_of_some hscan] at h; cases h

/-- All a fault of an instruction can be: GETC and IN without a character are held, and a scan may be Diverged. -/
theorem exec_fault_cases {i : Instr} {s : State} {f : Fault} (h : exec i s = .fault f) :
    (f = .held ∧ ¬ s.CharReady ∧ ∃ spare, i = .trap spare 0x20 ∨ i = .trap spare 0x23) ∨ f = .diverged := by
  cases i with
  | trap spare vect =>
    obtain rfl | rfl | rfl | rfl | rfl | rfl | hu := trapVector_cases vect
    case inl =>
      by_cases hc : s.CharReady
      · obtain ⟨c, m, hget⟩ := State.exists_inGet_link_of_charReady hc
        rw [exec_getc_of_inGet hget] at h
        cases h
      · rw [exec_getc_of_held (State.inGet_link_of_not_charReady hc)] at h
        cases h
        exact .inl ⟨rfl, hc, spare, .inl rfl⟩
    case inr.inr.inr.inl =>
      by_cases hc : s.CharReady
      · obtain ⟨c, m, hget⟩ := State.exists_inGet_link_of_charReady hc
        rw [exec_in_of_inGet hget] at h
        cases h
      · rw [exec_in_of_held (State.inGet_link_of_not_charReady hc)] at h
        cases h
        exact .inl ⟨rfl, hc, spare, .inr rfl⟩
    case inr.inr.inl =>
      rw [exec_trap, execTrap_puts] at h
      exact .inr (eq_diverged_of_scanFromR0_eq_fault h)
    case inr.inr.inr.inr.inl =>
      rw [exec_trap, execTrap_putsp] at h
      exact .inr (eq_diverged_of_scanFromR0_eq_fault h)
    case inr.inr.inr.inr.inr.inr =>
      rw [exec_unknown hu] at h
      cases h
    all_goals exact nomatch h
  | _ => exact nomatch h

/-- GETC and IN alone are held, and only without a character (R142). -/
theorem exec_eq_held_iff (i : Instr) (s : State) :
    exec i s = .fault .held ↔ ¬ s.CharReady ∧ ∃ spare, i = .trap spare 0x20 ∨ i = .trap spare 0x23 := by
  refine ⟨fun h => ?_, ?_⟩
  · obtain ⟨_, hheld⟩ | hdiv := exec_fault_cases h
    · exact hheld
    · cases hdiv
  · rintro ⟨hc, spare, rfl | rfl⟩
    · exact exec_getc_of_held (State.inGet_link_of_not_charReady hc) spare
    · exact exec_in_of_held (State.inGet_link_of_not_charReady hc) spare

/-- Only a latched core answers a failure as a fault: a failing instruction answers a next state. -/
theorem latched_of_step_eq_failed {s : State} {f : Failure} (h : step s = .fault (.failed f)) :
    s.faultLatch = some f := by
  obtain hr | ⟨_, hs⟩ | ⟨_, g, hl, hs⟩ | hs := step_cases s
  · rw [step_of_ready hr] at h
    obtain ⟨hf, _⟩ | hf := exec_fault_cases h <;> cases hf
  · rw [hs] at h; cases h
  · rw [hs] at h; cases h; exact hl
  · rw [hs] at h; cases h

/-- A LIVE poll leaves 0x0000 or 0x8000 at KBSR, a BR or an RTI: a TRAP is never read from there. -/
theorem memRead_mode_or_ne_kbsr_of_trap {s : State} {a : Word} {spare : BitVec 4} {vect : BitVec 8}
    (h : decode (s.memRead a).1 = .trap spare vect) : s.params.inputMode = .injected ∨ a ≠ kbsr := by
  by_contra hno
  obtain ⟨hm, ha⟩ := not_or.1 hno
  rw [not_not.1 ha, State.memRead_kbsr] at h
  obtain ⟨hinj, _⟩ | ⟨_, _, hpoll⟩ | ⟨_, _, _, _, hpoll⟩ := s.poll_cases
  · exact hm hinj
  · rw [hpoll, State.peek_memWrite, if_pos rfl] at h
    have hop : (0x0000 : Word).extractLsb' 12 4 = 15#4 := opcode_of_decode_eq h
    exact absurd hop (by decide)
  · rw [hpoll, State.peek_memWrite, if_pos rfl] at h
    have hop : (0x8000 : Word).extractLsb' 12 4 = 15#4 := opcode_of_decode_eq h
    exact absurd hop (by decide)

/-- Settles O42: the fetch of a TRAP changes only PC, so the character is there after it exactly if it was before. -/
theorem heldExactlyWithoutACharacter : Obligations.HeldExactlyWithoutACharacter := by
  intro s
  have hheld (hr : s.Ready) : step s = .fault .held ↔ ¬ ((s.memRead s.pc).2.setPc (s.pc + 1)).CharReady ∧
      ∃ spare, decode (s.memRead s.pc).1 = .trap spare 0x20 ∨ decode (s.memRead s.pc).1 = .trap spare 0x23 := by
    rw [step_of_ready hr, exec_eq_held_iff]
  have hfetch : (∃ spare, decode (s.memRead s.pc).1 = .trap spare 0x20 ∨ decode (s.memRead s.pc).1 = .trap spare 0x23) →
      (s.memRead s.pc).2 = s := by
    rintro ⟨spare, hw | hw⟩ <;> rw [State.memRead_eq_peek s.pc (memRead_mode_or_ne_kbsr_of_trap hw)]
  refine ⟨⟨fun h => ?_, fun ⟨hr, hc, hw⟩ => ?_⟩, fun h => ?_⟩
  · have hr := ready_of_step_eq_fault h nofun
    obtain ⟨hc, hw⟩ := (hheld hr).1 h
    rw [hfetch hw] at hc
    exact ⟨hr, hc, hw⟩
  · refine (hheld hr).2 ⟨?_, hw⟩
    rw [hfetch hw]
    exact hc
  · exact hfetch ((hheld (ready_of_step_eq_fault h nofun)).1 h).2

/-- Where a step is held: the word at PC is a GETC or an IN, and the fetch of it polls nothing. -/
theorem step_eq_held {s : State} (h : step s = .fault .held) : s.Ready ∧ ¬ s.CharReady ∧
    (s.params.inputMode = .injected ∨ s.pc ≠ kbsr) ∧
    ∃ spare, decode (s.peek s.pc) = .trap spare 0x20 ∨ decode (s.peek s.pc) = .trap spare 0x23 := by
  obtain ⟨hr, hc, spare, hw⟩ := (heldExactlyWithoutACharacter s).1.1 h
  have hpc := hw.elim memRead_mode_or_ne_kbsr_of_trap memRead_mode_or_ne_kbsr_of_trap
  rw [State.memRead_eq_peek s.pc hpc] at hw
  exact ⟨hr, hc, hpc, spare, hw⟩

/-- A GETC or an IN in LIVE mode with a byte queued takes it to R0. -/
theorem exec_char_live {s : State} {c : Byte} {rest : List Byte} {spare : BitVec 4} {i : Instr}
    (hi : i = .trap spare 0x20 ∨ i = .trap spare 0x23) (hm : s.params.inputMode = .live)
    (hq : s.inputQueue = c :: rest) : ∃ u, exec i s = .next u ∧ u.reg .r0 = BitVec.ofNat 16 c.toNat := by
  rcases hi with rfl | rfl
  · obtain ⟨u, hu, h0, _⟩ := Sys2Proof.trapGetc.2.1 spare s c rest hm hq
    exact ⟨u, hu, h0⟩
  · obtain ⟨u, hu, _, h0, _⟩ := Sys2Proof.trapIn.1 spare s c rest hm hq
    exact ⟨u, hu, h0⟩

/-- A GETC or an IN in INJECTED mode with KBSR's bit 15 set takes KBDR's low byte to R0. -/
theorem exec_char_injected {s : State} {spare : BitVec 4} {i : Instr}
    (hi : i = .trap spare 0x20 ∨ i = .trap spare 0x23) (hm : s.params.inputMode = .injected)
    (hk : (s.peek 0xFE00).getLsbD 15 = true) : ∃ u, exec i s = .next u ∧ u.reg .r0 = s.peek 0xFE02 &&& 0x00FF := by
  rcases hi with rfl | rfl
  · obtain ⟨u, hu, h0, _⟩ := Sys2Proof.trapGetc.2.2.1 spare s hm hk
    exact ⟨u, hu, h0⟩
  · obtain ⟨u, hu, _, h0, _⟩ := Sys2Proof.trapIn.2.1 spare s hm hk
    exact ⟨u, hu, h0⟩

/-- Settles O43: the host's input leaves the fetched word alone and makes the character available. -/
theorem heldStepIsLiftedByInput : Obligations.HeldStepIsLiftedByInput := by
  intro s h
  obtain ⟨hr, hc, hpc, spare, hw⟩ := step_eq_held h
  refine ⟨fun c t ht => ?live, fun hm k d hk hkbsr hkbdr => ?injected⟩
  case live =>
    cases hm : s.params.inputMode with
    | injected => rw [State.giveInput, hm] at ht; cases ht
    | live =>
      rw [State.giveInput, hm] at ht
      cases ht
      have hq : s.inputQueue = [] := not_not.1 fun hq => hc (.inl ⟨hm, hq⟩)
      rw [step_of_ready_of_peek (s := { s with inputQueue := s.inputQueue ++ [c] }) hr hpc]
      exact exec_char_live hw hm (by rw [hq]; rfl)
  case injected =>
    have hpeek : ((s.writeMem 0xFE02 d).writeMem 0xFE00 k).peek s.pc = s.peek s.pc := by
      rw [State.writeMem, State.writeMem, State.peek_memWrite, if_neg hkbsr, State.peek_memWrite, if_neg hkbdr]
    rw [← hpeek] at hw
    rw [step_of_ready_of_peek (s := (s.writeMem 0xFE02 d).writeMem 0xFE00 k) hr (.inl hm)]
    obtain ⟨u, hu, h0⟩ := exec_char_injected hw
      (s := ((s.writeMem 0xFE02 d).writeMem 0xFE00 k).setPc (s.pc + 1)) hm (by simpa [State.writeMem] using hk)
    exact ⟨u, hu, by simpa [State.writeMem] using h0⟩

/-! ### Stores seen by the fetch, and zero words -/

/-- Settles O44: the store at PC is one word past the ST, and the next fetch reads it back. -/
theorem storeIsSeenByTheNextFetch : Obligations.StoreIsSeenByTheNextFetch := by
  intro s sr hr hpc hpc1 hw
  have hstep : step s = .next ((s.setPc (s.pc + 1)).memWrite (s.pc + 1) (s.reg sr)) := by
    rw [step_of_ready_of_peek hr (.inr hpc), hw, exec_st]
    simp
  refine ⟨_, hstep, rfl, ?_⟩
  show (State.memRead _ (s.pc + 1)).1 = s.reg sr
  rw [State.memRead_of_ne _ hpc1, State.peek_memWrite, if_pos rfl]

/-- A zero word is a BR that is never taken (R130, R212). -/
theorem step_of_zero_word {s : State} (hr : s.Ready) (hpc : s.pc ≠ kbsr) (hw : s.peek s.pc = 0) :
    step s = .next (s.setPc (s.pc + 1)) := by
  rw [step_of_ready_of_peek hr (.inr hpc), hw]
  exact exec_br_of_not_taken BitVec.zero_and 0

/-- Settles O45, by induction on the number of zero words. -/
theorem zeroWordsSlide : Obligations.ZeroWordsSlide := by
  intro n
  induction n with
  | zero =>
    intro s _ _
    show Host.Outcome.next s = .next (s.setPc (s.pc + 0#16))
    rw [BitVec.add_zero]
    rfl
  | succ n ih =>
    intro s hr hzero
    obtain ⟨hpc, hw⟩ := hzero 0 n.succ_pos
    simp only [BitVec.ofNat_eq_ofNat, BitVec.add_zero] at hpc hw
    rw [core_run_succ_of_next n (step_of_zero_word hr hpc hw), add_ofNat_succ]
    refine ih (s.setPc (s.pc + 1)) hr fun k hk => ?_
    have hnext := hzero (k + 1) (Nat.succ_lt_succ hk)
    rwa [add_ofNat_succ] at hnext

end Sys2Proof.Machine
end

section
/-! PROOFS. Sign extension (R13), JSRR and the return from a call (R134), and the reset state (R200). -/

namespace Sys2Proof.Machine

/-- Settles O5: truncation keeps the low b bits, and its sign bit is bit b - 1. -/
theorem signExtensionCopiesTheTopBit : Obligations.SignExtensionCopiesTheTopBit := by
  intro x b h1 h16
  refine ⟨fun j hj => ?low, fun j hj hj16 => ?high⟩
  case low =>
    have hj16 : j < 16 := by omega
    rw [sext, sextField, BitVec.getLsbD_signExtend, if_pos hj, BitVec.getLsbD_setWidth]
    simp [hj, hj16]
  case high =>
    have hb : b - 1 < b := by omega
    rw [sext, sextField, BitVec.getLsbD_signExtend, if_neg (by omega), BitVec.msb_eq_getLsbD_last,
      BitVec.getLsbD_setWidth]
    simp [hj16, hb]

theorem exec_jsrr (spareHi : BitVec 2) (base : Reg) (spareLo : BitVec 6) (s : State) :
    exec (.jsrr spareHi base spareLo) s =
    .next (s.link.setPc (if s.params.jsrrReadsBaseFirst then s.reg base else s.link.reg base)) := rfl

/-- The link write is seen only where BaseR is R7 and is read after it (R134, D22). -/
theorem jsrr_target (s : State) (base : Reg) :
    (if s.params.jsrrReadsBaseFirst then s.reg base else s.link.reg base) =
      if base = .r7 ∧ s.params.jsrrReadsBaseFirst = false then s.pc else s.reg base := by
  cases s.params.jsrrReadsBaseFirst <;> simp

/-- Settles O25: opcode 4 with bit 11 clear, and one PC write after the link write. -/
theorem jumpToSubroutineRegister : Obligations.JumpToSubroutineRegister := by
  refine ⟨fun w hop h11 => ?words, fun hi base lo s => ?effect⟩
  case words => rw [decode_of_opcode_jsr hop, h11]; rfl
  case effect =>
    exact ⟨_, exec_jsrr hi base lo s, (s.link.onlyPc_setPc _).onlyLinkAndPc, jsrr_target s base⟩

/-- Settles O26: both calls leave the return address in R7, which JMP R7 jumps to. -/
theorem returnAfterCall : Obligations.ReturnAfterCall := by
  intro off hi base lo hi' lo' s t hcall
  have hlink : t.reg .r7 = s.pc := by
    rcases hcall with h | h
    · rw [exec_jsr] at h
      cases h
      exact s.link_reg_r7
    · rw [exec_jsrr] at h
      cases h
      exact s.link_reg_r7
  exact ⟨_, exec_jmp hi' .r7 lo' t, hlink⟩

/-- Settles O54: empty memory is canonical, COND is ZRO and the latch is clear. -/
theorem resetHasTheInvariant : Obligations.ResetHasTheInvariant :=
  ⟨⟨List.Pairwise.nil, nofun⟩, .inr (.inl rfl), trivial⟩

/-- Settles O56: memory is empty, and 0x3000 is not KBSR, so the first fetch polls in neither mode. -/
theorem resetRest : Obligations.ResetRest :=
  ⟨fun _ => rfl, rfl, rfl, rfl, rfl,
    step_of_ready_of_peek (s := State.reset) ⟨rfl, rfl, rfl⟩ (.inr (show (0x3000 : Word) ≠ 0xFE00 by decide))⟩

end Sys2Proof.Machine
end

section
/-! PROOFS. The host's transactions: the image loader (R203 to R209), request_halt (R178) and the run (R191, R192). -/

namespace Sys2Proof.Machine

/-! ### The words of an image -/

/-- Two bytes, the most significant first, are one word (R204). -/
theorem append_eq_ofNat (hi lo : Byte) : (hi ++ lo : BitVec 16) = BitVec.ofNat 16 (hi.toNat * 256 + lo.toNat) := by
  apply BitVec.eq_of_toNat_eq
  have hhi := hi.isLt
  have hlo := lo.isLt
  rw [BitVec.toNat_append, ← Nat.shiftLeft_add_eq_or_of_lt hlo, Nat.shiftLeft_eq, BitVec.toNat_ofNat]
  omega

@[simp] theorem length_imageWords : ∀ bs : List Byte, (imageWords bs).length = bs.length / 2
  | [] => rfl
  | [_] => by simp [imageWords]
  | hi :: lo :: rest => by
    simp only [imageWords, List.length_cons, length_imageWords rest]
    omega

theorem getD_imageWords : ∀ (bs : List Byte) (k : Nat), k < bs.length / 2 → (imageWords bs).getD k 0 =
    BitVec.ofNat 16 ((bs.getD (2 * k) 0).toNat * 256 + (bs.getD (2 * k + 1) 0).toNat)
  | [], _, hk => absurd hk (Nat.not_lt_zero _)
  | [_], _, hk => by simp at hk
  | hi :: lo :: rest, 0, _ => by rw [imageWords, append_eq_ofNat]; rfl
  | hi :: lo :: rest, k + 1, hk => by
    have hrest : k < rest.length / 2 := by simp only [List.length_cons] at hk; omega
    rw [imageWords, List.getD_cons_succ, getD_imageWords rest k hrest]
    rfl

/-! ### The stores of a load -/

/-- A load writes memory and nothing else (R205, R210). -/
theorem State.storeWords_eq (s : State) (a : Word) (ws : List Word) :
    s.storeWords a ws = { s with mem := (s.storeWords a ws).mem } := by
  induction ws generalizing s a with
  | nil => rfl
  | cons w rest ih => rw [State.storeWords, ih]; rfl

/-- The words of a load that stays in the address space stand one after another; all else reads as before. -/
theorem State.peek_storeWords (s : State) {n : Nat} {ws : List Word} (hfit : n + ws.length ≤ 65536) (b : Word) :
    (s.storeWords (BitVec.ofNat 16 n) ws).peek b =
      if n ≤ b.toNat ∧ b.toNat < n + ws.length then ws.getD (b.toNat - n) 0 else s.peek b := by
  induction ws generalizing s n with
  | nil => rw [if_neg (by simp)]; rfl
  | cons w rest ih =>
    simp only [List.length_cons] at hfit ⊢
    have hnext : BitVec.ofNat 16 n + 1 = BitVec.ofNat 16 (n + 1) := BitVec.eq_of_toNat_eq (by simp)
    have hat : b = BitVec.ofNat 16 n ↔ b.toNat = n := by
      rw [BitVec.toNat_eq, BitVec.toNat_ofNat, Nat.mod_eq_of_lt (by omega)]
    rw [State.storeWords, hnext, ih _ (by omega), State.peek_memWrite]
    simp only [hat]
    rcases Nat.lt_trichotomy b.toNat n with hlt | heq | hgt
    · rw [if_neg (by omega), if_neg (by omega), if_neg (by omega)]
    · rw [if_neg (by omega), if_pos heq, if_pos (by omega), heq, Nat.sub_self]
      rfl
    · by_cases hin : b.toNat < n + (rest.length + 1)
      · obtain ⟨k, hk⟩ : ∃ k, b.toNat = n + 1 + k := ⟨b.toNat - (n + 1), by omega⟩
        rw [if_pos (by omega), if_pos (by omega), hk, show n + 1 + k - (n + 1) = k by omega,
          show n + 1 + k - n = k + 1 by omega, List.getD_cons_succ]
      · rw [if_neg (by omega), if_neg (by omega), if_neg (by omega)]

theorem imageWords_cons_cons (hi lo : Byte) (rest : List Byte) :
    imageWords (hi :: lo :: rest) = BitVec.ofNat 16 (hi.toNat * 256 + lo.toNat) :: imageWords rest := by
  rw [imageWords, append_eq_ofNat]

theorem toNat_origin (hi lo : Byte) :
    (BitVec.ofNat 16 (hi.toNat * 256 + lo.toNat)).toNat = hi.toNat * 256 + lo.toNat := by
  have hhi := hi.isLt
  have hlo := lo.isLt
  rw [BitVec.toNat_ofNat, Nat.mod_eq_of_lt (by omega)]

/-- A load of at least two bytes: too large, or its words stored from the origin on (R206, R209). -/
theorem State.loadImage_cons_cons (s : State) (hi lo : Byte) (rest : List Byte) :
    s.loadImage (some (hi :: lo :: rest)) =
      if 65536 < (hi.toNat * 256 + lo.toNat) + rest.length / 2 then .error .tooLarge
      else .ok { s.storeWords (BitVec.ofNat 16 (hi.toNat * 256 + lo.toNat)) (imageWords rest) with
        segments := s.segments ++ [(BitVec.ofNat 16 (hi.toNat * 256 + lo.toNat), rest.length / 2)] } := by
  simp only [State.loadImage, imageWords_cons_cons, toNat_origin, length_imageWords]

/-- Settles O57: the words by `peek_storeWords`, the frame by `storeWords_eq`. -/
theorem imageLoadStoresItsWords : Obligations.ImageLoadStoresItsWords := by
  intro s hi lo rest hfit
  have hframe := s.storeWords_eq (BitVec.ofNat 16 (hi.toNat * 256 + lo.toNat)) (imageWords rest)
  refine ⟨_, (s.loadImage_cons_cons hi lo rest).trans (if_neg (by omega)), fun a => ?words, rfl,
    (congrArg State.regs hframe :), (congrArg State.pc hframe :), (congrArg State.cond hframe :),
    (congrArg State.running hframe :), (congrArg State.faultLatch hframe :), (congrArg State.output hframe :),
    (congrArg State.inputQueue hframe :),
    (congrArg State.params hframe :)⟩
  case words =>
    refine (s.peek_storeWords (by rwa [length_imageWords]) a).trans ?_
    rw [length_imageWords]
    split
    · next hin => exact getD_imageWords rest _ (by omega)
    · rfl

/-- Settles O58: fewer than two bytes hold no origin, and the sum is the loader's own test. -/
theorem imageLoadFails : Obligations.ImageLoadFails := by
  intro s
  refine ⟨rfl, fun bs hshort => ?short,
    fun hi lo rest hlarge => (s.loadImage_cons_cons hi lo rest).trans (if_pos hlarge)⟩
  case short =>
    match bs, hshort with
    | [], _ => rfl
    | [_], _ => rfl

/-! ### request_halt -/

/-- Settles O59: the state left is a halted one, and the latch is tested before the flag. -/
theorem haltRequestStopsTheCore : Obligations.HaltRequestStopsTheCore := fun s =>
  ⟨rfl, fun hc hl => step_of_halted (s := s.requestHalt) hc hl rfl,
    fun _ hc hl => step_of_latched (s := s.requestHalt) hc hl⟩

/-! ### The run -/

theorem State.hostStep_eq_diverged_iff (s : State) : s.hostStep = .diverged ↔ step s = .fault .diverged := by
  refine ⟨fun h => ?_, State.hostStep_of_diverged⟩
  cases hs : step s with
  | next t => rw [State.hostStep_of_next hs] at h; cases h
  | refused r => rw [State.hostStep, hs] at h; cases h
  | fault f =>
    cases f with
    | diverged => rfl
    | failed r | held => rw [State.hostStep, hs] at h; cases h

/-- What a return of `run` says of the state it leaves (R191, R192). -/
def RunReturn.Leaves : RunReturn → State → Prop
  | .ok, t => t.endedWell
  | .failed f, t => t.faultLatch = some f
  | .held, t => t.Ready ∧ step t = .fault .held
  | .refused p, t => step t = .refused p
  | .running, t => t.running = true ∧ t.faultLatch = none

/-- A run watched for no step returns what the state shows. -/
theorem State.runFor_zero (s : State) : ∃ r, s.runFor 0 = .returns r s ∧ r.Leaves s := by
  cases hl : s.faultLatch with
  | some f => exact ⟨.failed f, State.runFor_of_latch 0 hl, hl⟩
  | none =>
    cases hr : s.running with
    | false => exact ⟨.ok, State.runFor_of_halted 0 hl hr, hr, hl⟩
    | true => exact ⟨.running, by simp [State.runFor, hl, hr], hr, hl⟩

/-- The first step of a watched run completes, is Diverged, or makes the run return where it stands. -/
theorem State.runFor_succ_cases (n : Nat) (s : State) :
    (s.faultLatch = none ∧ s.running = true ∧ ∃ t, step s = .next t) ∨
    (s.faultLatch = none ∧ s.running = true ∧ step s = .fault .diverged) ∨
    ∃ r, s.runFor (n + 1) = .returns r s ∧ r.Leaves s := by
  cases hl : s.faultLatch with
  | some f => exact .inr (.inr ⟨.failed f, State.runFor_of_latch (n + 1) hl, hl⟩)
  | none =>
    cases hr : s.running with
    | false => exact .inr (.inr ⟨.ok, State.runFor_of_halted (n + 1) hl hr, hr, hl⟩)
    | true =>
      cases hs : step s with
      | next t => exact .inl ⟨rfl, rfl, t, rfl⟩
      | refused p => exact .inr (.inr ⟨.refused p, by simp [State.runFor, hl, hr, hs], hs⟩)
      | fault f =>
        cases f with
        | diverged => exact .inr (.inl ⟨rfl, rfl, rfl⟩)
        | held => exact .inr (.inr ⟨.held, by simp [State.runFor, hl, hr, hs], ready_of_step_eq_fault hs nofun, hs⟩)
        | failed f => rw [latched_of_step_eq_failed hs] at hl; cases hl

theorem State.runFor_returns {n : Nat} {s t : State} {r : RunReturn} (h : s.runFor n = .returns r t) : r.Leaves t := by
  induction n generalizing s with
  | zero =>
    obtain ⟨q, hq, hleaves⟩ := s.runFor_zero
    rw [hq] at h
    cases h
    exact hleaves
  | succ n ih =>
    obtain ⟨hl, hr, u, hs⟩ | ⟨hl, hr, hs⟩ | ⟨q, hq, hleaves⟩ := s.runFor_succ_cases n
    · rw [State.runFor_succ_of_next n hl hr hs] at h
      exact ih h
    · rw [State.runFor_succ_of_diverged n hl hr hs] at h
      cases h
    · rw [hq] at h
      cases h
      exact hleaves

/-- A Diverged run: some of its steps lead to a ready state whose step is Diverged. -/
theorem State.runFor_diverged_step {n : Nat} {s : State} (h : s.runFor n = .diverged) : ∃ (k : Nat) (t : State),
    k < n ∧ Host.Core.run Sys2Proof.core k s = .next t ∧ t.Ready ∧ step t = .fault .diverged := by
  induction n generalizing s with
  | zero =>
    obtain ⟨q, hq, _⟩ := s.runFor_zero
    rw [hq] at h
    cases h
  | succ n ih =>
    obtain ⟨hl, hr, u, hs⟩ | ⟨_, _, hs⟩ | ⟨q, hq, _⟩ := s.runFor_succ_cases n
    · rw [State.runFor_succ_of_next n hl hr hs] at h
      obtain ⟨k, t, hk, hrun, hdiv⟩ := ih h
      exact ⟨k + 1, t, Nat.succ_lt_succ hk, (core_run_succ_of_next k hs).trans hrun, hdiv⟩
    · exact ⟨0, s, n.succ_pos, core_run_zero s, ready_of_step_eq_fault hs nofun, hs⟩
    · rw [hq] at h
      cases h

/-- A Diverged run never returns, however long it is watched. -/
theorem State.runFor_diverged_mono {n m : Nat} {s : State} (h : s.runFor n = .diverged) (hnm : n ≤ m) :
    s.runFor m = .diverged := by
  induction n generalizing s m with
  | zero =>
    obtain ⟨q, hq, _⟩ := s.runFor_zero
    rw [hq] at h
    cases h
  | succ n ih =>
    obtain ⟨m, rfl⟩ : ∃ k, m = k + 1 := ⟨m - 1, by omega⟩
    obtain ⟨hl, hr, u, hs⟩ | ⟨hl, hr, hs⟩ | ⟨q, hq, _⟩ := s.runFor_succ_cases n
    · rw [State.runFor_succ_of_next n hl hr hs] at h
      rw [State.runFor_succ_of_next m hl hr hs]
      exact ih h (Nat.le_of_succ_le_succ hnm)
    · exact State.runFor_succ_of_diverged m hl hr hs
    · rw [hq] at h
      cases h

/-- Settles O60: a return says what it leaves, and Diverged leaves nothing to say but where it began. -/
theorem runReturnsWhatItLeft : Obligations.RunReturnsWhatItLeft := by
  refine ⟨fun s => ⟨s.hostStep_eq_diverged_iff, fun hs f => ?_⟩, fun n s => ?_⟩
  · rw [State.hostStep_of_diverged hs, Answer.andThen_diverged]
  · cases h : s.runFor n with
    | returns r t =>
      have hleaves := State.runFor_returns h
      cases r <;> exact hleaves
    | diverged => exact ⟨State.runFor_diverged_step h, fun m hnm => State.runFor_diverged_mono h hnm⟩

end Sys2Proof.Machine
end
